-- ==== Sys2Proof/Word.lean ====
section
/-! DEFINITION. The value types of the machine: the 8-bit byte, the 16-bit word and the opcode's fields
(spec/00_scope.md R6, R8, R11). -/

namespace Sys2Proof

/-- A general register, a timer, a byte of memory: 8 bits unsigned (R6: V_WIDTH, BYTE, DT_WIDTH, ST_WIDTH). -/
abbrev Byte := BitVec 8

/-- An opcode, the program counter, the index register, a stack entry: 16 bits unsigned (R6). -/
abbrev Word := BitVec 16

/-- A 4-bit slice of an opcode (R12, "Nibble"): a register field `X` or `Y`, or the count `n`.
As a register field every value 0..15 names an existing register (R21). -/
abbrev Nibble := BitVec 4

/-- The 12-bit field `nnn` (R11). -/
abbrev Addr12 := BitVec 12

/-- `zext_16` of R9 for a byte. -/
abbrev zextByte (b : Byte) : Word := b.setWidth 16

/-- `zext_16` of R9 for the field `nnn` (R73). -/
abbrev zextAddr (a : Addr12) : Word := a.setWidth 16

end Sys2Proof
end

