-- ==== Sys2Proof/Config.lean ====
section
/-! DEFINITION. What is fixed for one machine: the constants of R6, the parameters of R7 that the spec leaves open
(spec/92_eei_decisions.md D2 to D5) and the free random byte (D18). -/

namespace Sys2Proof

/-- MEM_SIZE of R6: addresses 0..4095. -/
@[simp] abbrev memSize : Nat := 4096

/-- FONT_BASE of R6. -/
@[simp] abbrev fontBase : Nat := 0x50

/-- FONT_SIZE of R6: 16 glyphs of 5 bytes. -/
@[simp] abbrev fontSize : Nat := 80

/-- PROG_BASE of R6. -/
@[simp] abbrev progBase : Nat := 0x200

/-- PROG_MAX of R6: 4096 - 0x200. -/
@[simp] abbrev progMax : Nat := 3584

/-- RESET_PC of R6. -/
@[simp] abbrev resetPc : Word := 0x200

/-- FB_W of R6: columns of the framebuffer. -/
@[simp] abbrev fbWidth : Nat := 64

/-- FB_H of R6: rows of the framebuffer. -/
@[simp] abbrev fbHeight : Nat := 32

/-- The parameter ALU_FLAG_ORDER of R7 and R153: whether a later effect of 8xy5, 8xy6, 8xy7 and 8xyE reads what an
earlier effect of the same instruction wrote. -/
inductive AluFlagOrder where
  /-- The effects run in the listed order, each reading what the one before left (the spec's default, D5). -/
  | sequential
  /-- Every operand is read before the first write. -/
  | simultaneous
  deriving DecidableEq, Repr

/-- The parameters of R7, fixed for one machine. They lie in State as plain data that no step and no transaction
changes, so that a statement about every state holds for every value of them, as D2 to D5 ask. DESIGN CHOICE, safe: log entry 1. -/
structure Config where
  /-- STACK_CAP (D2): none, or the greatest number of entries (at least 1, see `Config.wf`). -/
  stackCap     : Option Nat
  /-- FONT (D3): the 80 bytes that construction and reset write at 0x50. -/
  font         : Vector Byte 80
  /-- STRICT_DECODE (D4): whether the nibbles that 00E0, 00EE, 5xy0 and 9xy0 spell as zero must be zero. -/
  strictDecode : Bool
  /-- ALU_FLAG_ORDER (D5). -/
  aluFlagOrder : AluFlagOrder
  deriving DecidableEq, Repr

/-- R7: STACK_CAP is none or a natural number c >= 1. -/
def Config.wf (c : Config) : Bool := c.stackCap != some 0

/-- The conventional hex font of R58, the default FONT: five bytes a glyph, glyphs 0 to F in order. PRESUMED (R58 gives it
from general knowledge), unsafe for a claim about a glyph's pixels: log entry 4. -/
def Config.defaultFont : Vector Byte 80 := #v[
  0xF0, 0x90, 0x90, 0x90, 0xF0,  0x20, 0x60, 0x20, 0x20, 0x70,
  0xF0, 0x10, 0xF0, 0x80, 0xF0,  0xF0, 0x10, 0xF0, 0x10, 0xF0,
  0x90, 0x90, 0xF0, 0x10, 0x10,  0xF0, 0x80, 0xF0, 0x10, 0xF0,
  0xF0, 0x80, 0xF0, 0x90, 0xF0,  0xF0, 0x10, 0x20, 0x40, 0x40,
  0xF0, 0x90, 0xF0, 0x90, 0xF0,  0xF0, 0x90, 0xF0, 0x10, 0xF0,
  0xF0, 0x90, 0xF0, 0x90, 0x90,  0xE0, 0x90, 0xE0, 0x90, 0xE0,
  0xF0, 0x80, 0x80, 0x80, 0xF0,  0xE0, 0x90, 0x90, 0x90, 0xE0,
  0xF0, 0x80, 0xF0, 0x80, 0xF0,  0xF0, 0x80, 0xF0, 0x80, 0x80]

/-- The default parameters of R7: log entry 4. -/
def Config.default : Config where
  stackCap     := none
  font         := Config.defaultFont
  strictDecode := false
  aluFlagOrder := .sequential

/-- The random input RND of R7 and R238 (D18): the byte that the n-th execution of `Cxkk` takes. It has no body, so a
statement about it holds for every byte of every source. DESIGN CHOICE, safe: log entry 2. -/
opaque Config.randomByte : Nat → Byte

end Sys2Proof
end

