-- ==== Sys2Proof/Syntax.lean ====
section
/-! DEFINITION. The 34 operations of the opcode map, one constructor per row of spec/opcode_table.json
(spec/30_encoding.md R76), in the table's order. -/

namespace Sys2Proof

/-- One constructor per row of R76. `x` and `y` are the register fields, `kk` the immediate byte, `nnn` the 12-bit
address, `n` the low nibble (R11). A bit of the opcode that the operation does not use is kept as well (the nibble
`u` of CLS, RET, SE Vx, Vy and SNE Vx, Vy, and the `y` of SHR and SHL), because a fault record holds the whole
opcode (R35) and because STRICT_DECODE looks at `u` (R75). The word that decodes to `NOP` is no row of the table and
no constructor here (see `Operation` in Decode.lean). DESIGN CHOICE, safe: log entry 6. -/
inductive Instr where
  /-- 00E0 CLS (R190). `u` is op[11:8]. -/
  | cls (u : Nibble)
  /-- 00EE RET (R120). `u` is op[11:8]. -/
  | ret (u : Nibble)
  /-- 1nnn JP addr (R121). -/
  | jp (nnn : Addr12)
  /-- 2nnn CALL addr (R122). -/
  | call (nnn : Addr12)
  /-- 3xkk SE Vx, byte (R124). -/
  | seImm (x : Nibble) (kk : Byte)
  /-- 4xkk SNE Vx, byte (R125). -/
  | sneImm (x : Nibble) (kk : Byte)
  /-- 5xy0 SE Vx, Vy (R126). `u` is op[3:0]. -/
  | seReg (x y u : Nibble)
  /-- 6xkk LD Vx, byte (R140). -/
  | ldImm (x : Nibble) (kk : Byte)
  /-- 7xkk ADD Vx, byte (R141). -/
  | addImm (x : Nibble) (kk : Byte)
  /-- 8xy0 LD Vx, Vy (R142). -/
  | ldReg (x y : Nibble)
  /-- 8xy1 OR Vx, Vy (R143). -/
  | orReg (x y : Nibble)
  /-- 8xy2 AND Vx, Vy (R144). -/
  | andReg (x y : Nibble)
  /-- 8xy3 XOR Vx, Vy (R145). -/
  | xorReg (x y : Nibble)
  /-- 8xy4 ADD Vx, Vy (R146). -/
  | addReg (x y : Nibble)
  /-- 8xy5 SUB Vx, Vy (R147). -/
  | subReg (x y : Nibble)
  /-- 8xy6 SHR Vx (R148). `y` is encoded but not read. -/
  | shr (x y : Nibble)
  /-- 8xy7 SUBN Vx, Vy (R149). -/
  | subnReg (x y : Nibble)
  /-- 8xyE SHL Vx (R150). `y` is encoded but not read. -/
  | shl (x y : Nibble)
  /-- 9xy0 SNE Vx, Vy (R127). `u` is op[3:0]. -/
  | sneReg (x y u : Nibble)
  /-- Annn LD I, addr (R170). -/
  | ldI (nnn : Addr12)
  /-- Bnnn JP V0, addr (R123). -/
  | jpV0 (nnn : Addr12)
  /-- Cxkk RND Vx, byte (R151). -/
  | rnd (x : Nibble) (kk : Byte)
  /-- Dxyn DRW Vx, Vy, nibble (R191). -/
  | drw (x y n : Nibble)
  /-- Ex9E SKP Vx (R210). -/
  | skp (x : Nibble)
  /-- ExA1 SKNP Vx (R211). -/
  | sknp (x : Nibble)
  /-- Fx07 LD Vx, DT (R213). -/
  | ldVxDt (x : Nibble)
  /-- Fx0A LD Vx, K (R212). -/
  | ldVxK (x : Nibble)
  /-- Fx15 LD DT, Vx (R214). -/
  | ldDtVx (x : Nibble)
  /-- Fx18 LD ST, Vx (R215). -/
  | ldStVx (x : Nibble)
  /-- Fx1E ADD I, Vx (R171). -/
  | addIVx (x : Nibble)
  /-- Fx29 LD F, Vx (R172). -/
  | ldFVx (x : Nibble)
  /-- Fx33 LD B, Vx (R173). -/
  | ldBVx (x : Nibble)
  /-- Fx55 LD [I], Vx (R174). -/
  | ldMemVx (x : Nibble)
  /-- Fx65 LD Vx, [I] (R175). -/
  | ldVxMem (x : Nibble)
  deriving DecidableEq, Repr

end Sys2Proof
end

