-- ==== Sys2Proof/WellFormed.lean ====
section
/-! DEFINITION. When an instruction is one the decoder can give (spec/30_encoding.md R75). The operand fields are bit
vectors of their exact widths, so the only check left is the one STRICT_DECODE makes of four unused nibbles. -/

namespace Sys2Proof

/-- R75, `strict_ok_0` and `strict_ok_59`: under STRICT_DECODE the nibble that the patterns 00E0, 00EE, 5xy0 and 9xy0
spell as zero is zero. -/
def unusedNibbleOk (strict : Bool) (u : Nibble) : Bool := u == 0 || !strict

/-- The instructions that a machine with STRICT_DECODE = `strict` has. -/
def Instr.wellFormed (strict : Bool) : Instr → Bool
  | .cls u        => unusedNibbleOk strict u
  | .ret u        => unusedNibbleOk strict u
  | .jp _         => true
  | .call _       => true
  | .seImm _ _    => true
  | .sneImm _ _   => true
  | .seReg _ _ u  => unusedNibbleOk strict u
  | .ldImm _ _    => true
  | .addImm _ _   => true
  | .ldReg _ _    => true
  | .orReg _ _    => true
  | .andReg _ _   => true
  | .xorReg _ _   => true
  | .addReg _ _   => true
  | .subReg _ _   => true
  | .shr _ _      => true
  | .subnReg _ _  => true
  | .shl _ _      => true
  | .sneReg _ _ u => unusedNibbleOk strict u
  | .ldI _        => true
  | .jpV0 _       => true
  | .rnd _ _      => true
  | .drw _ _ _    => true
  | .skp _        => true
  | .sknp _       => true
  | .ldVxDt _     => true
  | .ldVxK _      => true
  | .ldDtVx _     => true
  | .ldStVx _     => true
  | .addIVx _     => true
  | .ldFVx _      => true
  | .ldBVx _      => true
  | .ldMemVx _    => true
  | .ldVxMem _    => true

end Sys2Proof
end

