-- ==== Sys2Proof/Decode.lean ====
section
/-! DEFINITION. The opcode fields, the decoder, the opcode map and the encoder (spec/30_encoding.md). -/

namespace Sys2Proof

/-! ### Fields of an opcode (R11, R71) -/

/-- The family nibble op[15:12]. -/
def opFamily (w : Word) : Nibble := w.extractLsb' 12 4

/-- The register field X = op[11:8]. -/
def opX (w : Word) : Nibble := w.extractLsb' 8 4

/-- The register field Y = op[7:4]. -/
def opY (w : Word) : Nibble := w.extractLsb' 4 4

/-- The nibble immediate n = op[3:0]. -/
def opN (w : Word) : Nibble := w.extractLsb' 0 4

/-- The immediate byte kk = op[7:0]. -/
def opKK (w : Word) : Byte := w.extractLsb' 0 8

/-- The 12-bit field nnn = op[11:0]. -/
def opNNN (w : Word) : Addr12 := w.extractLsb' 0 12

/-! ### Byte order (R52) -/

/-- The opcode whose byte at the lower address is `hi` (R52: big-endian). -/
def wordOfBytes (hi lo : Byte) : Word := hi ++ lo

/-- The byte of an opcode at the lower address, op[15:8]. -/
def highByte (w : Word) : Byte := w.extractLsb' 8 8

/-- The byte of an opcode at the higher address, op[7:0]. -/
def lowByte (w : Word) : Byte := w.extractLsb' 0 8

/-! ### The decoder (R75) -/

/-- What a word decodes to: one of the 34 operations or `NOP` (R75, R103). -/
inductive Operation where
  | op (i : Instr)
  /-- R78: a word that matches no defined operation. It changes nothing. -/
  | nop
  deriving DecidableEq, Repr

/-- Why a list of bytes holds no instruction. Decoding a whole word never fails (R103). -/
inductive DecodeError where
  /-- Fewer than the two bytes of an instruction (R70). -/
  | truncated
  deriving DecidableEq, Repr

/-- The operation, where the nibble `u` may be what it is, else `NOP` (R75: `strict_ok_0`, `strict_ok_59`). -/
def opIfUnusedOk (strict : Bool) (u : Nibble) (i : Instr) : Operation :=
  if unusedNibbleOk strict u then .op i else .nop

/-- Family 0x0 of R75: the low byte selects. -/
def decodeFamily0 (strict : Bool) (w : Word) : Operation :=
  match (opKK w).toNat with
  | 0xE0 => opIfUnusedOk strict (opX w) (.cls (opX w))
  | 0xEE => opIfUnusedOk strict (opX w) (.ret (opX w))
  | _    => .nop

/-- Family 0x8 of R75: the low nibble selects. -/
def decodeFamily8 (w : Word) : Operation :=
  match (opN w).toNat with
  | 0x0 => .op (.ldReg (opX w) (opY w))
  | 0x1 => .op (.orReg (opX w) (opY w))
  | 0x2 => .op (.andReg (opX w) (opY w))
  | 0x3 => .op (.xorReg (opX w) (opY w))
  | 0x4 => .op (.addReg (opX w) (opY w))
  | 0x5 => .op (.subReg (opX w) (opY w))
  | 0x6 => .op (.shr (opX w) (opY w))
  | 0x7 => .op (.subnReg (opX w) (opY w))
  | 0xE => .op (.shl (opX w) (opY w))
  | _   => .nop

/-- Family 0xE of R75: the low byte selects. -/
def decodeFamilyE (w : Word) : Operation :=
  match (opKK w).toNat with
  | 0x9E => .op (.skp (opX w))
  | 0xA1 => .op (.sknp (opX w))
  | _    => .nop

/-- Family 0xF of R75: the low byte selects. -/
def decodeFamilyF (w : Word) : Operation :=
  match (opKK w).toNat with
  | 0x07 => .op (.ldVxDt (opX w))
  | 0x0A => .op (.ldVxK (opX w))
  | 0x15 => .op (.ldDtVx (opX w))
  | 0x18 => .op (.ldStVx (opX w))
  | 0x1E => .op (.addIVx (opX w))
  | 0x29 => .op (.ldFVx (opX w))
  | 0x33 => .op (.ldBVx (opX w))
  | 0x55 => .op (.ldMemVx (opX w))
  | 0x65 => .op (.ldVxMem (opX w))
  | _    => .nop

/-- `decode(op)` of R75, total on every word, with the parameter STRICT_DECODE. -/
def decode (strict : Bool) (w : Word) : Operation :=
  match (opFamily w).toNat with
  | 0x0 => decodeFamily0 strict w
  | 0x1 => .op (.jp (opNNN w))
  | 0x2 => .op (.call (opNNN w))
  | 0x3 => .op (.seImm (opX w) (opKK w))
  | 0x4 => .op (.sneImm (opX w) (opKK w))
  | 0x5 => opIfUnusedOk strict (opN w) (.seReg (opX w) (opY w) (opN w))
  | 0x6 => .op (.ldImm (opX w) (opKK w))
  | 0x7 => .op (.addImm (opX w) (opKK w))
  | 0x8 => decodeFamily8 w
  | 0x9 => opIfUnusedOk strict (opN w) (.sneReg (opX w) (opY w) (opN w))
  | 0xA => .op (.ldI (opNNN w))
  | 0xB => .op (.jpV0 (opNNN w))
  | 0xC => .op (.rnd (opX w) (opKK w))
  | 0xD => .op (.drw (opX w) (opY w) (opN w))
  | 0xE => decodeFamilyE w
  | _   => decodeFamilyF w

/-- Decoding the bytes at an address: the first two are one word, big-endian (R52, R70). The bytes after them are
given back. -/
def decodeBytes (strict : Bool) : List Byte → Except DecodeError (Operation × List Byte)
  | hi :: lo :: rest => .ok (decode strict (wordOfBytes hi lo), rest)
  | _                => .error .truncated

/-- The two bytes, at rising addresses, of the opcode whose bits are the low `nbits` bits of `w`. -/
def tableBytes (nbits w : Nat) : List Byte :=
  let op := BitVec.ofNat 16 (w % 2 ^ nbits)
  [highByte op, lowByte op]

/-- What the decoder of a machine with the default parameters reads from an opcode whose bits are `w`, numbered as
spec/opcode_table.json numbers them. `none` where the word is `NOP`. -/
def decodeTableWord (nbits w : Nat) : Option Instr :=
  match decodeBytes Config.default.strictDecode (tableBytes nbits w) with
  | .ok (.op i, _) => some i
  | .ok (.nop, _)  => none
  | .error _       => none

/-! ### The opcode map (R76) -/

/-- A line of R76: a word `w` matches it when `w &&& mask = matchBits`. `make` reads the operand fields. -/
structure OpcodeRow where
  pattern    : String
  operation  : String
  matchBits  : Word
  mask       : Word
  maskStrict : Word
  make       : Word → Instr

/-- R76: "A word matches a row when `(op & mask) == match`", under the mask set of STRICT_DECODE = `strict`. -/
def OpcodeRow.covers (strict : Bool) (r : OpcodeRow) (w : Word) : Bool :=
  w &&& (if strict then r.maskStrict else r.mask) == r.matchBits

/-- Rows 00E0 to 7xkk of R76. -/
def opcodeMapLow : List OpcodeRow := [
  ⟨"00E0", "CLS", 0x00E0, 0xF0FF, 0xFFFF, fun w => .cls (opX w)⟩,
  ⟨"00EE", "RET", 0x00EE, 0xF0FF, 0xFFFF, fun w => .ret (opX w)⟩,
  ⟨"1nnn", "JP", 0x1000, 0xF000, 0xF000, fun w => .jp (opNNN w)⟩,
  ⟨"2nnn", "CALL", 0x2000, 0xF000, 0xF000, fun w => .call (opNNN w)⟩,
  ⟨"3xkk", "SE_IMM", 0x3000, 0xF000, 0xF000, fun w => .seImm (opX w) (opKK w)⟩,
  ⟨"4xkk", "SNE_IMM", 0x4000, 0xF000, 0xF000, fun w => .sneImm (opX w) (opKK w)⟩,
  ⟨"5xy0", "SE_REG", 0x5000, 0xF000, 0xF00F, fun w => .seReg (opX w) (opY w) (opN w)⟩,
  ⟨"6xkk", "LD_IMM", 0x6000, 0xF000, 0xF000, fun w => .ldImm (opX w) (opKK w)⟩,
  ⟨"7xkk", "ADD_IMM", 0x7000, 0xF000, 0xF000, fun w => .addImm (opX w) (opKK w)⟩]

/-- Rows 8xy0 to 8xyE of R76. -/
def opcodeMapAlu : List OpcodeRow := [
  ⟨"8xy0", "LD_REG", 0x8000, 0xF00F, 0xF00F, fun w => .ldReg (opX w) (opY w)⟩,
  ⟨"8xy1", "OR", 0x8001, 0xF00F, 0xF00F, fun w => .orReg (opX w) (opY w)⟩,
  ⟨"8xy2", "AND", 0x8002, 0xF00F, 0xF00F, fun w => .andReg (opX w) (opY w)⟩,
  ⟨"8xy3", "XOR", 0x8003, 0xF00F, 0xF00F, fun w => .xorReg (opX w) (opY w)⟩,
  ⟨"8xy4", "ADD_REG", 0x8004, 0xF00F, 0xF00F, fun w => .addReg (opX w) (opY w)⟩,
  ⟨"8xy5", "SUB", 0x8005, 0xF00F, 0xF00F, fun w => .subReg (opX w) (opY w)⟩,
  ⟨"8xy6", "SHR", 0x8006, 0xF00F, 0xF00F, fun w => .shr (opX w) (opY w)⟩,
  ⟨"8xy7", "SUBN", 0x8007, 0xF00F, 0xF00F, fun w => .subnReg (opX w) (opY w)⟩,
  ⟨"8xyE", "SHL", 0x800E, 0xF00F, 0xF00F, fun w => .shl (opX w) (opY w)⟩]

/-- Rows 9xy0 to ExA1 of R76. -/
def opcodeMapMid : List OpcodeRow := [
  ⟨"9xy0", "SNE_REG", 0x9000, 0xF000, 0xF00F, fun w => .sneReg (opX w) (opY w) (opN w)⟩,
  ⟨"Annn", "LD_I", 0xA000, 0xF000, 0xF000, fun w => .ldI (opNNN w)⟩,
  ⟨"Bnnn", "JP_V0", 0xB000, 0xF000, 0xF000, fun w => .jpV0 (opNNN w)⟩,
  ⟨"Cxkk", "RND", 0xC000, 0xF000, 0xF000, fun w => .rnd (opX w) (opKK w)⟩,
  ⟨"Dxyn", "DRW", 0xD000, 0xF000, 0xF000, fun w => .drw (opX w) (opY w) (opN w)⟩,
  ⟨"Ex9E", "SKP", 0xE09E, 0xF0FF, 0xF0FF, fun w => .skp (opX w)⟩,
  ⟨"ExA1", "SKNP", 0xE0A1, 0xF0FF, 0xF0FF, fun w => .sknp (opX w)⟩]

/-- Rows Fx07 to Fx65 of R76. -/
def opcodeMapHigh : List OpcodeRow := [
  ⟨"Fx07", "LD_VX_DT", 0xF007, 0xF0FF, 0xF0FF, fun w => .ldVxDt (opX w)⟩,
  ⟨"Fx0A", "LD_VX_K", 0xF00A, 0xF0FF, 0xF0FF, fun w => .ldVxK (opX w)⟩,
  ⟨"Fx15", "LD_DT_VX", 0xF015, 0xF0FF, 0xF0FF, fun w => .ldDtVx (opX w)⟩,
  ⟨"Fx18", "LD_ST_VX", 0xF018, 0xF0FF, 0xF0FF, fun w => .ldStVx (opX w)⟩,
  ⟨"Fx1E", "ADD_I_VX", 0xF01E, 0xF0FF, 0xF0FF, fun w => .addIVx (opX w)⟩,
  ⟨"Fx29", "LD_F_VX", 0xF029, 0xF0FF, 0xF0FF, fun w => .ldFVx (opX w)⟩,
  ⟨"Fx33", "LD_B_VX", 0xF033, 0xF0FF, 0xF0FF, fun w => .ldBVx (opX w)⟩,
  ⟨"Fx55", "LD_MEM_VX", 0xF055, 0xF0FF, 0xF0FF, fun w => .ldMemVx (opX w)⟩,
  ⟨"Fx65", "LD_VX_MEM", 0xF065, 0xF0FF, 0xF0FF, fun w => .ldVxMem (opX w)⟩]

/-- The 34 lines of R76, in the table's order. -/
def opcodeMap : List OpcodeRow := opcodeMapLow ++ opcodeMapAlu ++ opcodeMapMid ++ opcodeMapHigh

/-! ### The encoder (R72) -/

/-- Format ADDR of R72: family, nnn. -/
def encodeAddr (family : Nibble) (nnn : Addr12) : Word := family ++ nnn

/-- Format RI of R72: family, X, kk. Format RS is the same with the sub-op byte in place of kk. -/
def encodeRegByte (family x : Nibble) (kk : Byte) : Word := family ++ x ++ kk

/-- Formats RR and DRW of R72: family, X, Y and the sub-op or the count. -/
def encodeRegReg (family x y n : Nibble) : Word := family ++ x ++ y ++ n

/-- The word of an instruction (R72, R76). -/
def encode : Instr → Word
  | .cls u        => encodeRegByte 0x0 u 0xE0
  | .ret u        => encodeRegByte 0x0 u 0xEE
  | .jp nnn       => encodeAddr 0x1 nnn
  | .call nnn     => encodeAddr 0x2 nnn
  | .seImm x kk   => encodeRegByte 0x3 x kk
  | .sneImm x kk  => encodeRegByte 0x4 x kk
  | .seReg x y u  => encodeRegReg 0x5 x y u
  | .ldImm x kk   => encodeRegByte 0x6 x kk
  | .addImm x kk  => encodeRegByte 0x7 x kk
  | .ldReg x y    => encodeRegReg 0x8 x y 0x0
  | .orReg x y    => encodeRegReg 0x8 x y 0x1
  | .andReg x y   => encodeRegReg 0x8 x y 0x2
  | .xorReg x y   => encodeRegReg 0x8 x y 0x3
  | .addReg x y   => encodeRegReg 0x8 x y 0x4
  | .subReg x y   => encodeRegReg 0x8 x y 0x5
  | .shr x y      => encodeRegReg 0x8 x y 0x6
  | .subnReg x y  => encodeRegReg 0x8 x y 0x7
  | .shl x y      => encodeRegReg 0x8 x y 0xE
  | .sneReg x y u => encodeRegReg 0x9 x y u
  | .ldI nnn      => encodeAddr 0xA nnn
  | .jpV0 nnn     => encodeAddr 0xB nnn
  | .rnd x kk     => encodeRegByte 0xC x kk
  | .drw x y n    => encodeRegReg 0xD x y n
  | .skp x        => encodeRegByte 0xE x 0x9E
  | .sknp x       => encodeRegByte 0xE x 0xA1
  | .ldVxDt x     => encodeRegByte 0xF x 0x07
  | .ldVxK x      => encodeRegByte 0xF x 0x0A
  | .ldDtVx x     => encodeRegByte 0xF x 0x15
  | .ldStVx x     => encodeRegByte 0xF x 0x18
  | .addIVx x     => encodeRegByte 0xF x 0x1E
  | .ldFVx x      => encodeRegByte 0xF x 0x29
  | .ldBVx x      => encodeRegByte 0xF x 0x33
  | .ldMemVx x    => encodeRegByte 0xF x 0x55
  | .ldVxMem x    => encodeRegByte 0xF x 0x65

/-- The two bytes of an instruction as memory holds them, the high byte at the lower address (R52). -/
def encodeBytes (i : Instr) : List Byte := [highByte (encode i), lowByte (encode i)]

end Sys2Proof
end

