-- ==== Sys2Proof/Machine/State.lean ====
section
/-! DEFINITION. The state of the block (spec/10_state.md R20), the fault record (R35), the reasons a step can stop,
and the state after reset (R41). -/

namespace Sys2Proof.Machine

/-- The faults of R250. -/
inductive FaultKind where
  /-- Raised by the fetch when PC >= 4095 (R251). -/
  | fetchOutOfBounds
  /-- Raised by Dxyn, Fx33, Fx55 and Fx65 when a data address I + k is >= 4096 (R252). -/
  | memoryOutOfBounds
  /-- Raised by Ex9E and ExA1 when V[X] > 15 (R253). -/
  | keyIndexOutOfRange
  /-- Raised by 00EE when the stack is empty (R254). -/
  | stackUnderflow
  /-- Raised by 2nnn when the stack holds STACK_CAP entries (R255). -/
  | stackOverflow
  deriving DecidableEq, Repr

/-- The detail a fault record holds (R35, column `info` of R250). -/
inductive FaultInfo where
  | none
  /-- The lowest out-of-range data address, an exact integer (R176, R252). -/
  | addr (a : Nat)
  /-- The value V[X] used as a key index (R216, R253). -/
  | key (k : Byte)
  deriving DecidableEq, Repr

/-- A fault record `{kind, pc, opcode, info}` (R35). -/
structure FaultRecord where
  kind   : FaultKind
  /-- The address of the instruction whose cycle faulted. -/
  pc     : Word
  /-- Its opcode. `none` for `fetchOutOfBounds`, where no opcode was fetched. -/
  opcode : Option Word
  info   : FaultInfo
  deriving DecidableEq, Repr

/-- MEM (R33) as the bytes that differ from what reset leaves there: addresses strictly rising (see `Memory.wf` in
Ops.lean). An address that is not listed reads as the reset contents of R41. DESIGN CHOICE, safe: log
entry 8. -/
abbrev Memory := List Host.Cell

/-- FB (R31): 64 columns by 32 rows of one-bit cells. Row `y` is the `y`-th entry and column `x` its bit `x`, so that
cell `idx = y*64 + x` is bit `idx % 64` of entry `idx / 64`. Only `Framebuffer.cell` and `Framebuffer.toggle` of
Ops.lean know this layout. DESIGN CHOICE, safe: log entry 7. -/
abbrev Framebuffer := Vector (BitVec 64) 32

/-- The architectural state of R20, with two fields of the model's own: the parameters of R7 (`cfg`) and the number of
random bytes taken so far (`rndCount`). -/
structure State where
  /-- V[0..15], the general registers (R21). V[15] is VF (R22). -/
  v        : Vector Byte 16
  /-- MEM[0..4095] (R33). -/
  mem      : Memory
  /-- The index register I (R27). -/
  i        : Word
  /-- The program counter PC (R24). -/
  pc       : Word
  /-- STACK (R28), the top entry first. -/
  stack    : List Word
  /-- The delay timer DT (R29). -/
  dt       : Byte
  /-- The sound timer ST (R30). -/
  st       : Byte
  /-- FB[0..2047] (R31). -/
  fb       : Framebuffer
  /-- KEY[0..15], true = pressed (R32). -/
  key      : Vector Bool 16
  /-- FAULT (R35): none, or the record of the fault that halted the machine. -/
  fault    : Option FaultRecord
  /-- The model's own: the parameters of R7, which nothing changes. -/
  cfg      : Config
  /-- The model's own: how many bytes of the random input have been taken (R238). -/
  rndCount : Nat
  deriving DecidableEq, Repr

/-- Why a step stops. The faults of R250 are NOT here: the cycle that raises one has a next state, the one R106
describes, with FAULT latched. -/
inductive Fault where
  /-- Raised by the cycle on a machine whose FAULT is already latched (R107): it executes nothing, changes nothing and
  returns the latched record, which this reason carries. Safe: the spec gives such a cycle no effect. DESIGN CHOICE: log entry 3. -/
  | halted (r : FaultRecord)
  deriving DecidableEq, Repr

/-- Why an instruction has no meaning in the model. -/
inductive Refusal where
  /-- Raised by an arm of `exec` whose instruction is not modelled yet. No arm raises it now. Safe. -/
  | notModelled (mnemonic : String)
  deriving DecidableEq, Repr

/-- The values of R41 for a machine with the parameters `c`. MEM lists nothing: an unlisted address reads as the font
byte or the zero that R41 gives it. `rndCount` is no element of R20 and starts at 0 (DESIGN CHOICE:
log entry 11). -/
def State.resetWith (c : Config) : State where
  v        := Vector.replicate 16 0
  mem      := []
  i        := 0
  pc       := resetPc
  stack    := []
  dt       := 0
  st       := 0
  fb       := Vector.replicate 32 0
  key      := Vector.replicate 16 false
  fault    := none
  cfg      := c
  rndCount := 0

/-- The machine right after construction, with the default parameters of R7 (R41, R237). -/
def State.reset : State := State.resetWith Config.default

end Sys2Proof.Machine
end

