-- ==== Sys2Proof/Machine/Ops.lean ====
section
/-! DEFINITION. The named operations over memory, registers, stack, framebuffer, keys, timers and the random input, and
raising a fault (spec/00_scope.md R10). -/

namespace Sys2Proof.Machine

/-! ### Memory (spec/20_memory.md) -/

/-- The reset contents of MEM for a font (R41, R58): the font bytes at 0x50..0x9F, zero elsewhere. This is what an
address that a memory does not list reads as. -/
def Memory.background (font : Vector Byte 80) (a : Nat) : Byte :=
  if h : fontBase ≤ a ∧ a < fontBase + fontSize then
    font[a - fontBase]'(Nat.sub_lt_left_of_lt_add h.1 h.2)
  else 0

/-- The byte at `a`: the listed one, else the background's. -/
def Memory.read (bg : Nat → Byte) : Memory → Nat → Byte
  | [], a          => bg a
  | (k, b) :: m, a => if k = a then b else Memory.read bg m a

/-- The memory without an entry for `a`. -/
def Memory.erase (m : Memory) (a : Nat) : Memory := m.filter (fun c => c.1 != a)

/-- The memory with the entry `(a, b)` put before the first entry of a higher address. -/
def Memory.insert (a : Nat) (b : Byte) : Memory → Memory
  | []          => [(a, b)]
  | (k, c) :: m => if a < k then (a, b) :: (k, c) :: m else (k, c) :: Memory.insert a b m

/-- The memory after byte `b` is written at `a`. Writing the background's byte leaves no entry. -/
def Memory.write (bg : Nat → Byte) (m : Memory) (a : Nat) (b : Byte) : Memory :=
  if b = bg a then m.erase a else Memory.insert a b (m.erase a)

/-- The canonical form: addresses strictly rising and below 4096, and no entry equal to the background's byte. -/
abbrev Memory.wf (bg : Nat → Byte) (m : Memory) : Prop :=
  m.Pairwise (fun c d => c.1 < d.1) ∧ ∀ c ∈ m, c.1 < memSize ∧ c.2 ≠ bg c.1

/-- What an unlisted address of this machine reads as. -/
def State.background (s : State) : Nat → Byte := Memory.background s.cfg.font

/-- `MemRead(addr, 1)` of R10. The rules check the range before they read (R61, `outOfRange` in Operands.lean). -/
def State.loadByte (s : State) (a : Nat) : Byte := s.mem.read s.background a

/-- `MemWrite(addr, 1, v)` of R10. An address at or above 4096 does not reach memory (R61); the rules check the range
before they write. -/
def State.storeByte (s : State) (a : Nat) (b : Byte) : State :=
  if a < memSize then { s with mem := s.mem.write s.background a b } else s

/-- One-byte writes at ascending addresses from `a` (R53). -/
def State.storeBytes (s : State) (a : Nat) : List Byte → State
  | []      => s
  | b :: bs => (s.storeByte a b).storeBytes (a + 1) bs

/-- The canonical form of this machine's memory. -/
abbrev State.MemWF (s : State) : Prop := Memory.wf s.background s.mem

/-! ### General registers (R21) -/

/-- Register 15, the carry, borrow and collision flag (R22). -/
def VF : Nibble := 0xF

/-- `V[i]` of R10. -/
def State.readV (s : State) (r : Nibble) : Byte := s.v[r.toNat]'r.isLt

/-- `V[i] <- b` of R10. No register is hardwired (R21). -/
def State.writeV (s : State) (r : Nibble) (b : Byte) : State := { s with v := s.v.set r.toNat b r.isLt }

/-- `V[0..n-1]` as a list, ascending. -/
def State.firstRegs (s : State) (n : Nat) : List Byte := (List.range n).map fun k => s.readV (BitVec.ofNat 4 k)

/-- `V[k] <- bs[k]`, ascending from register `k`. -/
def State.loadRegs (s : State) (k : Nat) : List Byte → State
  | []      => s
  | b :: bs => (s.writeV (BitVec.ofNat 4 k) b).loadRegs (k + 1) bs

/-! ### Program counter (R25) -/

/-- The fetch advance of R102. -/
def State.advance (s : State) : State := { s with pc := s.pc + 2 }

/-- The skip of R128: 2 more when `taken`. -/
def State.skipIf (s : State) (taken : Bool) : State := if taken then { s with pc := s.pc + 2 } else s

/-! ### Stack (R28) -/

/-- R122: `STACK_CAP != none and length(STACK) == STACK_CAP`. -/
def State.stackFull (s : State) : Bool :=
  match s.cfg.stackCap with
  | none   => false
  | some c => s.stack.length == c

/-- `Push(v)` of R10. -/
def State.push (s : State) (w : Word) : State := { s with stack := w :: s.stack }

/-! ### Framebuffer (R31) -/

/-- `FB[idx]` of R10. -/
def Framebuffer.cell (fb : Framebuffer) (idx : Nat) : Bool :=
  (fb[idx / fbWidth]?.getD 0).getLsbD (idx % fbWidth)

/-- `FB[idx] <- not FB[idx]`. -/
def Framebuffer.toggle (fb : Framebuffer) (idx : Nat) : Framebuffer :=
  fb.setIfInBounds (idx / fbWidth) (fb[idx / fbWidth]?.getD 0 ^^^ BitVec.twoPow 64 (idx % fbWidth))

/-- Every cell off. -/
def Framebuffer.clear : Framebuffer := Vector.replicate 32 0

/-! ### Keys (R32) -/

/-- `KEY[k]` of R10. Every rule keeps `k` in 0..15 (R216). -/
def State.keyPressed (s : State) (k : Nat) : Bool := s.key[k]?.getD false

/-- `min { k in 0..15 | KEY[k] }` of R212, or `none` when no key is pressed. -/
def State.lowestKey (s : State) : Option Nat := (List.range 16).find? s.keyPressed

/-! ### Timers (R105) -/

/-- A timer after one tick: one less, and 0 stays 0. -/
def tickTimer (t : Byte) : Byte := if 0 < t.toNat then t - 1 else t

/-- The timer tick that ends a cycle (R105). -/
def State.tick (s : State) : State := { s with dt := tickTimer s.dt, st := tickTimer s.st }

/-! ### Random input (R238) -/

/-- `RND()` of R10: the next byte of the random input. -/
def State.randomByte (s : State) : Byte := Config.randomByte s.rndCount

/-- The state with that byte consumed (R39: each `Cxkk` consumes one). -/
def State.consumeRandom (s : State) : State := { s with rndCount := s.rndCount + 1 }

/-! ### Faults (R256, R257) -/

/-- The state of a machine that latches a fault of the instruction at `s.pc`: FAULT is set and nothing else changes
(R106, R257). There is no vector and no return: only `reset` clears FAULT (R260, `State.hostReset` in
HostInterface.lean). -/
def State.latch (s : State) (kind : FaultKind) (opcode : Option Word) (info : FaultInfo) : State :=
  { s with fault := some { kind := kind, pc := s.pc, opcode := opcode, info := info } }

/-- The state before the fetch advance (R102), which `raise` goes back to. -/
def State.unadvance (s : State) : State := { s with pc := s.pc - 2 }

/-- `raise F(info)` of R10 in the execute phase of `i`: the state is the one before the cycle, with FAULT latched
(R106, R256). A rule raises before its first write, so that only the fetch advance is to be undone.
DEDUCED, safe: log entry 5. -/
def State.raise (s : State) (i : Instr) (kind : FaultKind) (info : FaultInfo) : Host.Outcome State Fault Refusal :=
  .next (s.unadvance.latch kind (some (encode i)) info)

end Sys2Proof.Machine
end

