-- ==== Sys2Proof/Machine/Flags.lean ====
section
/-! DEFINITION. Every value an operation puts into VF as a side output (spec/10_state.md R22, spec/42_register_alu.md). -/

namespace Sys2Proof.Machine

/-- A flag as the byte VF holds. -/
def flagByte (b : Bool) : Byte := if b then 1 else 0

/-- R146: 1 when the exact sum exceeds 255. -/
def carryFlag (a b : Byte) : Byte := flagByte (decide (a.toNat + b.toNat > 255))

/-- R147, R149: 1 when `a > b` strictly. -/
def greaterFlag (a b : Byte) : Byte := flagByte (decide (a.toNat > b.toNat))

/-- R148: the bit that a right shift drops, `a & 1`. -/
def lowBitFlag (a : Byte) : Byte := a &&& 1

/-- R150: the bit that a left shift drops, `(a & 0x80) >> 7`. -/
def highBitFlag (a : Byte) : Byte := (a &&& 0x80) >>> 7

/-- R191: the collision flag of a whole draw. -/
def collisionFlag (c : Bool) : Byte := flagByte c

end Sys2Proof.Machine
end

