-- ==== Sys2Proof/Machine/Operands.lean ====
section
/-! DEFINITION. Operand forms: the arithmetic results, the flag-then-result order of R153, the address range check of
R176 and R252, the decimal digits of R173 and the walk over a sprite's bits of R191. -/

namespace Sys2Proof.Machine

/-! ### ALU results (R152) -/

/-- `(a + b) mod 256` of the exact sum (R141, R146). -/
def addMod (a b : Byte) : Byte := BitVec.ofNat 8 (a.toNat + b.toNat)

/-- `(a - b) mod 256` of the exact difference (R147, R149). -/
def subMod (a b : Byte) : Byte := BitVec.ofInt 8 ((a.toNat : Int) - (b.toNat : Int))

/-- The shared form of 8xy5, 8xy6, 8xy7 and 8xyE (R147 to R150, R153): VF gets `flag`, then V[x] gets `result`, each of
the registers `a` and `b`. With ALU_FLAG_ORDER = Sequential the result reads `a` and `b` after VF is written, with
Simultaneous before. -/
def State.flagThenResult (s : State) (x a b : Nibble) (flag result : Byte → Byte → Byte) : State :=
  let flagged := s.writeV VF (flag (s.readV a) (s.readV b))
  match s.cfg.aluFlagOrder with
  | .sequential   => flagged.writeV x (result (flagged.readV a) (flagged.readV b))
  | .simultaneous => flagged.writeV x (result (s.readV a) (s.readV b))

/-! ### Data addresses (R176, R252) -/

/-- Of the `count` addresses from `base` on (exact integers), the lowest that is >= 4096, if there is one:
`max(base, 4096)` of R173 to R175 and R191. -/
def outOfRange (base count : Nat) : Option Nat :=
  if 0 < count ∧ memSize ≤ base + count - 1 then some (max base memSize) else none

/-- The execute phase of an instruction that accesses the `count` bytes from I on: `MemoryOutOfBounds` when one of
them is out of range, before any write, else the state `t` (R176, R252). -/
def State.withDataRange (s : State) (i : Instr) (count : Nat) (t : State) : Host.Outcome State Fault Refusal :=
  match outOfRange s.i.toNat count with
  | some a => s.raise i .memoryOutOfBounds (.addr a)
  | none   => .next t

/-! ### Decimal digits (R173) -/

/-- The hundreds, tens and units of a byte. -/
def bcdDigits (b : Byte) : List Byte :=
  [BitVec.ofNat 8 (b.toNat / 100), BitVec.ofNat 8 (b.toNat / 10 % 10), BitVec.ofNat 8 (b.toNat % 10)]

/-! ### Sprites (R191) -/

/-- A framebuffer and the collision so far, `c` of R191. -/
abbrev Canvas := Framebuffer × Bool

/-- One column of a sprite row: `col` 0 is bit 7 of `b`. A column at or past 64 is clipped (R193); R191's `break` skips
the columns after it, which are clipped as well. DEDUCED, safe: log entry 14. -/
def drawColumn (b : Byte) (ox y : Nat) (cv : Canvas) (col : Nat) : Canvas :=
  if ox + col < fbWidth ∧ b.getLsbD (7 - col) then
    (cv.1.toggle (y * fbWidth + (ox + col)), cv.2 || cv.1.cell (y * fbWidth + (ox + col)))
  else cv

/-- One row of a sprite at framebuffer row `y`, columns ascending. -/
def drawRow (b : Byte) (ox y : Nat) (cv : Canvas) : Canvas := (List.range 8).foldl (drawColumn b ox y) cv

/-- The rows of a sprite from framebuffer row `y` on, ascending. -/
def drawRows (ox : Nat) : Nat → List Byte → Canvas → Canvas
  | _, [], cv      => cv
  | y, b :: bs, cv => drawRows ox (y + 1) bs (drawRow b ox y cv)

/-- `MEM[a .. a + n - 1]`, ascending. -/
def State.loadBytes (s : State) (a n : Nat) : List Byte := (List.range n).map fun k => s.loadByte (a + k)

/-- `min(n, 32 - oy)` of R191: the rows of a sprite that are drawn, and so read (R192). -/
def drawnRows (n : Nibble) (oy : Nat) : Nat := min n.toNat (fbHeight - oy)

end Sys2Proof.Machine
end

