-- ==== Sys2Proof/Machine/Alu.lean ====
section
/-! DEFINITION. Register loads, the ALU and the random load (spec/42_register_alu.md). -/

namespace Sys2Proof.Machine

/-- R140. -/
def execLdImm (x : Nibble) (kk : Byte) (s : State) : Host.Outcome State Fault Refusal :=
  .next (s.writeV x kk)

/-- R141: no flag. -/
def execAddImm (x : Nibble) (kk : Byte) (s : State) : Host.Outcome State Fault Refusal :=
  .next (s.writeV x (addMod (s.readV x) kk))

/-- R142. -/
def execLdReg (x y : Nibble) (s : State) : Host.Outcome State Fault Refusal :=
  .next (s.writeV x (s.readV y))

/-- R143. -/
def execOrReg (x y : Nibble) (s : State) : Host.Outcome State Fault Refusal :=
  .next (s.writeV x (s.readV x ||| s.readV y))

/-- R144. -/
def execAndReg (x y : Nibble) (s : State) : Host.Outcome State Fault Refusal :=
  .next (s.writeV x (s.readV x &&& s.readV y))

/-- R145. -/
def execXorReg (x y : Nibble) (s : State) : Host.Outcome State Fault Refusal :=
  .next (s.writeV x (s.readV x ^^^ s.readV y))

/-- R146: the sum first, VF last. -/
def execAddReg (x y : Nibble) (s : State) : Host.Outcome State Fault Refusal :=
  .next ((s.writeV x (addMod (s.readV x) (s.readV y))).writeV VF (carryFlag (s.readV x) (s.readV y)))

/-- R147. -/
def execSubReg (x y : Nibble) (s : State) : Host.Outcome State Fault Refusal :=
  .next (s.flagThenResult x x y greaterFlag subMod)

/-- R148. -/
def execShr (x : Nibble) (s : State) : Host.Outcome State Fault Refusal :=
  .next (s.flagThenResult x x x (fun a _ => lowBitFlag a) (fun a _ => a >>> 1))

/-- R149: the operands of R147 the other way round. -/
def execSubnReg (x y : Nibble) (s : State) : Host.Outcome State Fault Refusal :=
  .next (s.flagThenResult x y x greaterFlag subMod)

/-- R150. -/
def execShl (x : Nibble) (s : State) : Host.Outcome State Fault Refusal :=
  .next (s.flagThenResult x x x (fun a _ => highBitFlag a) (fun a _ => a <<< 1))

/-- R151: one random byte is taken, also when kk = 0. -/
def execRnd (x : Nibble) (kk : Byte) (s : State) : Host.Outcome State Fault Refusal :=
  .next (s.consumeRandom.writeV x (s.randomByte &&& kk))

end Sys2Proof.Machine
end

