-- ==== Sys2Proof/Machine/Control.lean ====
section
/-! DEFINITION. The return, jumps, call and register skips (spec/41_control_flow.md). In every meaning PC already
holds the instruction's address plus 2 (R102). -/

namespace Sys2Proof.Machine

/-- R120: pop the stack into PC, or `StackUnderflow` when it is empty. -/
def execRet (u : Nibble) (s : State) : Host.Outcome State Fault Refusal :=
  match s.stack with
  | []        => s.raise (.ret u) .stackUnderflow .none
  | w :: rest => .next { s with pc := w, stack := rest }

/-- R121. -/
def execJp (nnn : Addr12) (s : State) : Host.Outcome State Fault Refusal :=
  .next { s with pc := zextAddr nnn }

/-- R122: push PC, or `StackOverflow` when the stack holds STACK_CAP entries. -/
def execCall (nnn : Addr12) (s : State) : Host.Outcome State Fault Refusal :=
  if s.stackFull then s.raise (.call nnn) .stackOverflow .none
  else .next { s.push s.pc with pc := zextAddr nnn }

/-- R124. -/
def execSeImm (x : Nibble) (kk : Byte) (s : State) : Host.Outcome State Fault Refusal :=
  .next (s.skipIf (s.readV x == kk))

/-- R125. -/
def execSneImm (x : Nibble) (kk : Byte) (s : State) : Host.Outcome State Fault Refusal :=
  .next (s.skipIf (s.readV x != kk))

/-- R126. -/
def execSeReg (x y : Nibble) (s : State) : Host.Outcome State Fault Refusal :=
  .next (s.skipIf (s.readV x == s.readV y))

/-- R127. -/
def execSneReg (x y : Nibble) (s : State) : Host.Outcome State Fault Refusal :=
  .next (s.skipIf (s.readV x != s.readV y))

/-- R123: the exact sum of V0 and nnn, at most 4350. -/
def execJpV0 (nnn : Addr12) (s : State) : Host.Outcome State Fault Refusal :=
  .next { s with pc := zextByte (s.readV 0) + zextAddr nnn }

end Sys2Proof.Machine
end

