-- ==== Sys2Proof/Machine/Display.lean ====
section
/-! DEFINITION. Clearing the framebuffer and drawing a sprite (spec/44_display.md). -/

namespace Sys2Proof.Machine

/-- R190. -/
def execCls (s : State) : Host.Outcome State Fault Refusal :=
  .next { s with fb := Framebuffer.clear }

/-- R191 to R193: the origin is read before VF is written, only the drawn rows are read from memory, VF gets the
collision of the whole draw. -/
def execDrw (x y n : Nibble) (s : State) : Host.Outcome State Fault Refusal :=
  let ox   := (s.readV x).toNat % fbWidth
  let oy   := (s.readV y).toNat % fbHeight
  let rows := drawnRows n oy
  let cv   := drawRows ox oy (s.loadBytes s.i.toNat rows) (s.fb, false)
  s.withDataRange (.drw x y n) rows (State.writeV { s with fb := cv.1 } VF (collisionFlag cv.2))

end Sys2Proof.Machine
end

