-- ==== Sys2Proof/Machine/Index.lean ====
section
/-! DEFINITION. The index register and the memory transfers (spec/43_index_memory.md). -/

namespace Sys2Proof.Machine

/-- R170. -/
def execLdI (nnn : Addr12) (s : State) : Host.Outcome State Fault Refusal :=
  .next { s with i := zextAddr nnn }

/-- R171: a 16-bit add that wraps, with no flag. -/
def execAddIVx (x : Nibble) (s : State) : Host.Outcome State Fault Refusal :=
  .next { s with i := s.i + zextByte (s.readV x) }

/-- R172: V[X] is not masked. -/
def execLdFVx (x : Nibble) (s : State) : Host.Outcome State Fault Refusal :=
  .next { s with i := BitVec.ofNat 16 (fontBase + 5 * (s.readV x).toNat) }

/-- R173. -/
def execLdBVx (x : Nibble) (s : State) : Host.Outcome State Fault Refusal :=
  s.withDataRange (.ldBVx x) 3 (s.storeBytes s.i.toNat (bcdDigits (s.readV x)))

/-- R174: I is not changed. -/
def execLdMemVx (x : Nibble) (s : State) : Host.Outcome State Fault Refusal :=
  s.withDataRange (.ldMemVx x) (x.toNat + 1) (s.storeBytes s.i.toNat (s.firstRegs (x.toNat + 1)))

/-- R175: I is not changed. -/
def execLdVxMem (x : Nibble) (s : State) : Host.Outcome State Fault Refusal :=
  s.withDataRange (.ldVxMem x) (x.toNat + 1) (s.loadRegs 0 (s.loadBytes s.i.toNat (x.toNat + 1)))

end Sys2Proof.Machine
end

