-- ==== Sys2Proof/Machine/KeysTimers.lean ====
section
/-! DEFINITION. The key skips, the key wait and the timer moves (spec/45_keys_timers.md). -/

namespace Sys2Proof.Machine

/-- R210: `KeyIndexOutOfRange` when V[X] > 15 (R216). -/
def execSkp (x : Nibble) (s : State) : Host.Outcome State Fault Refusal :=
  if 15 < (s.readV x).toNat then s.raise (.skp x) .keyIndexOutOfRange (.key (s.readV x))
  else .next (s.skipIf (s.keyPressed (s.readV x).toNat))

/-- R211: `KeyIndexOutOfRange` when V[X] > 15 (R216). -/
def execSknp (x : Nibble) (s : State) : Host.Outcome State Fault Refusal :=
  if 15 < (s.readV x).toNat then s.raise (.sknp x) .keyIndexOutOfRange (.key (s.readV x))
  else .next (s.skipIf (!s.keyPressed (s.readV x).toNat))

/-- R212: with no key pressed PC goes back to this instruction, which the next cycle runs again. -/
def execLdVxK (x : Nibble) (s : State) : Host.Outcome State Fault Refusal :=
  match s.lowestKey with
  | none   => .next { s with pc := s.pc - 2 }
  | some k => .next (s.writeV x (BitVec.ofNat 8 k))

/-- R213: DT before this cycle's tick. -/
def execLdVxDt (x : Nibble) (s : State) : Host.Outcome State Fault Refusal :=
  .next (s.writeV x s.dt)

/-- R214: this cycle's tick follows. -/
def execLdDtVx (x : Nibble) (s : State) : Host.Outcome State Fault Refusal :=
  .next { s with dt := s.readV x }

/-- R215: this cycle's tick follows. -/
def execLdStVx (x : Nibble) (s : State) : Host.Outcome State Fault Refusal :=
  .next { s with st := s.readV x }

end Sys2Proof.Machine
end

