-- ==== Sys2Proof/Machine/Cycle.lean ====
section
/-! DEFINITION. The cycle engine: fetch, advance, decode, execute, timer tick (spec/40_cycle.md R106). -/

namespace Sys2Proof.Machine

/-- R101: a fetch at PC >= 4095 is out of bounds (its second byte would lie at 4096, R251). -/
def State.fetchOutOfBounds (s : State) : Bool := decide (4095 ≤ s.pc.toNat)

/-- R52, R101: the two bytes at PC and PC + 1, big-endian. -/
def State.fetchWord (s : State) : Word := wordOfBytes (s.loadByte s.pc.toNat) (s.loadByte (s.pc.toNat + 1))

/-- R104: `NOP` writes nothing. -/
def executeOperation (o : Operation) (s : State) : Host.Outcome State Fault Refusal :=
  match o with
  | .op i => exec i s
  | .nop  => .next s

/-- The end of a cycle after the execute phase (R105, R106): a cycle that latched a fault does not tick the timers. -/
def finishCycle : Host.Outcome State Fault Refusal → Host.Outcome State Fault Refusal
  | .next t    => .next (if t.fault.isSome then t else t.tick)
  | .fault r   => .fault r
  | .refused r => .refused r

/-- The execute phase and tick of a machine that is not halted and whose fetch is in bounds (R102 to R106). -/
def State.runWord (s : State) (w : Word) : Host.Outcome State Fault Refusal :=
  finishCycle (executeOperation (decode s.cfg.strictDecode w) s.advance)

/-- `cycle()` of R106. A halted machine executes nothing and returns its record (R107). -/
def runCycle (s : State) : Host.Outcome State Fault Refusal :=
  match s.fault with
  | some r => .fault (.halted r)
  | none   =>
    if s.fetchOutOfBounds then .next (s.latch .fetchOutOfBounds none .none)
    else s.runWord s.fetchWord

/-- The state with the two bytes of an opcode at PC and PC + 1, high byte first. DESIGN CHOICE, safe: log entry 10. -/
def State.placeWord (s : State) (nbits w : Nat) : State := s.storeBytes s.pc.toNat (tableBytes nbits w)

end Sys2Proof.Machine
end

