-- ==== Sys2Proof/Machine/Step.lean ====
section
/-! DEFINITION. One step of the machine: one `cycle` transaction (spec/40_cycle.md R100). -/

namespace Sys2Proof.Machine

/-- One `cycle` (R100, R106). The other transactions of the host, which come between cycles, are in
HostInterface.lean. -/
def step (s : State) : Host.Outcome State Fault Refusal := runCycle s

/-- The state whose next fetch reads the opcode of bits `w`. -/
def State.withFetchWord (s : State) (nbits w : Nat) : State := s.placeWord nbits w

end Sys2Proof.Machine
end

