-- ==== Sys2Proof/Machine/HostInterface.lean ====
section
/-! DEFINITION. The host's transactions and their results (spec/50_host_interface.md). Each is atomic and runs between
whole cycles (R230). -/

namespace Sys2Proof.Machine

/-- The errors a host transaction reports (R239). They are results, not faults. -/
inductive HostError where
  /-- R231: a program longer than 3584 bytes. -/
  | programTooLarge
  /-- R232, R233: a key index outside 0..15. -/
  | invalidKeyIndex
  deriving DecidableEq, Repr

/-- The transactions of R230. -/
inductive Transaction where
  | cycle
  | reset
  | loadProgram (bytes : List Byte)
  /-- The host may pass any integer (R241). -/
  | setKey (k : Int)
  | clearKey (k : Int)
  /-- The framebuffer readout of R236. -/
  | readout
  deriving DecidableEq, Repr

/-- What a transaction returns (the result column of R241). -/
inductive Response where
  | ok
  /-- R241: `reset` returns nothing. -/
  | nothing
  /-- R234: `Faulted(record)`. -/
  | faulted (r : FaultRecord)
  | hostError (e : HostError)
  /-- R236: 2048 words of 32 bits. -/
  | frame (words : Vector (BitVec 32) 2048)
  /-- The cycle's instruction has no meaning in the model. No instruction is such, so no transaction answers this. -/
  | noMeaning (r : Refusal)
  deriving DecidableEq, Repr

/-- The code of a fault, column `code` of R250 (D24). -/
def FaultKind.code : FaultKind → Nat
  | .fetchOutOfBounds   => 1
  | .memoryOutOfBounds  => 2
  | .keyIndexOutOfRange => 3
  | .stackUnderflow     => 4
  | .stackOverflow      => 5

/-- R234: the `cycle` transaction, its state and its result. A cycle on a halted machine leaves the state as it is
(R107). -/
def State.hostCycle (s : State) : State × Response :=
  match step s with
  | .next t            => (t, match t.fault with | none => .ok | some r => .faulted r)
  | .fault (.halted r) => (s, .faulted r)
  | .refused r         => (s, .noMeaning r)

/-- R235, R270: every element of R20 gets its reset value. The parameters of R7 are fixed for the machine, and the
random input, which lies outside the block, is not rewound. DEDUCED, safe: log entry 12. -/
def State.hostReset (s : State) : State := { State.resetWith s.cfg with rndCount := s.rndCount }

/-- R231: bytes are copied to 0x200 on, or the program is too large and nothing changes. -/
def State.hostLoad (s : State) (bytes : List Byte) : State × Response :=
  if progMax < bytes.length then (s, .hostError .programTooLarge)
  else (s.storeBytes progBase bytes, .ok)

/-- R232, R233: KEY[k] becomes `pressed`, or the index is invalid and nothing changes. -/
def State.hostKey (s : State) (k : Int) (pressed : Bool) : State × Response :=
  if 0 ≤ k ∧ k ≤ 15 then ({ s with key := s.key.setIfInBounds k.toNat pressed }, .ok)
  else (s, .hostError .invalidKeyIndex)

/-- R236: word `idx` is 0xFFFFFFFF when FB[idx] is on, else 0. -/
def State.frameWords (s : State) : Vector (BitVec 32) 2048 :=
  Vector.ofFn fun idx => if s.fb.cell idx.val then 0xFFFFFFFF else 0

/-- One transaction (R230). DESIGN CHOICE: log entry 9. -/
def transact (s : State) : Transaction → State × Response
  | .cycle             => s.hostCycle
  | .reset             => (s.hostReset, .nothing)
  | .loadProgram bytes => s.hostLoad bytes
  | .setKey k          => s.hostKey k true
  | .clearKey k        => s.hostKey k false
  | .readout           => (s, .frame s.frameWords)

/-- A run: a finite sequence of transactions from a start state (R279, D20), with its results in order. -/
def session (s : State) : List Transaction → State × List Response
  | []      => (s, [])
  | t :: ts =>
    let (s₁, r)  := transact s t
    let (s₂, rs) := session s₁ ts
    (s₂, r :: rs)

end Sys2Proof.Machine
end

