-- ==== Sys2Proof/Safety.lean ====
section
/-! DEFINITION. The terms of the claims: the elements of the state and what changes of them, the invariant of every
run, when a cycle faults, and the end of a program. -/

namespace Sys2Proof.Machine

/-! ### Elements of the state -/

/-- The elements of R20, and the model's own two fields. -/
inductive Element where
  | v | mem | i | pc | stack | dt | st | fb | key | fault | cfg | rnd
  deriving DecidableEq, Repr

/-- The element holds in `t` what it held in `s`. Memory is compared byte by byte, as the machine reads it, and
the framebuffer cell by cell. -/
def Element.kept (s t : State) : Element → Prop
  | .v     => ∀ r, t.readV r = s.readV r
  | .mem   => ∀ a, t.loadByte a = s.loadByte a
  | .i     => t.i = s.i
  | .pc    => t.pc = s.pc
  | .stack => t.stack = s.stack
  | .dt    => t.dt = s.dt
  | .st    => t.st = s.st
  | .fb    => ∀ idx, idx < 2048 → t.fb.cell idx = s.fb.cell idx
  | .key   => ∀ k, k < 16 → t.keyPressed k = s.keyPressed k
  | .fault => t.fault = s.fault
  | .cfg   => t.cfg = s.cfg
  | .rnd   => t.rndCount = s.rndCount

/-- The frame: every element outside `W` is kept. -/
def OnlyChanges (W : List Element) (s t : State) : Prop := ∀ e, e ∉ W → e.kept s t

/-- The frame of the register file: every register outside `R` is kept. -/
def RegsKeptBut (R : List Nibble) (s t : State) : Prop := ∀ r, r ∉ R → t.readV r = s.readV r

/-- The frame of memory: every byte outside the `n` bytes from `a` on is kept. -/
def MemKeptBut (a n : Nat) (s t : State) : Prop := ∀ b, (b < a ∨ a + n ≤ b) → t.loadByte b = s.loadByte b

/-! ### The invariant of every run -/

/-- A fault record has the shape of its line of R250. -/
def FaultRecord.wf (r : FaultRecord) : Bool :=
  match r.kind, r.opcode, r.info with
  | .fetchOutOfBounds, none, .none         => decide (4095 ≤ r.pc.toNat)
  | .memoryOutOfBounds, some _, .addr a    => decide (4096 ≤ a ∧ a ≤ 65535)
  | .keyIndexOutOfRange, some _, .key k    => decide (15 < k.toNat)
  | .stackUnderflow, some _, .none         => true
  | .stackOverflow, some _, .none          => true
  | _, _, _                                => false

/-- The latched record, if any, is of the instruction at PC (R106: "PC still holds `p`"). -/
def State.faultWf (s : State) : Bool :=
  match s.fault with
  | none   => true
  | some r => r.wf && r.pc == s.pc

/-- The stack holds at most STACK_CAP entries (R28). -/
def State.stackWithinCap (s : State) : Bool :=
  match s.cfg.stackCap with
  | none   => true
  | some c => decide (s.stack.length ≤ c)

/-- What holds in every state of every run: memory is canonical, the parameters are admissible (R7), the stack keeps to
its cap (R28), PC never passes 4350, the largest value R26 gives it, every return address is one a call pushes (at most
4096, R102), and a latched record is well formed (R35, R250). -/
structure State.Inv (s : State) : Prop where
  mem      : s.MemWF
  cfg      : s.cfg.wf = true
  stackCap : s.stackWithinCap = true
  pc       : s.pc.toNat ≤ 4350
  returns  : ∀ w ∈ s.stack, w.toNat ≤ 4096
  fault    : s.faultWf = true

/-! ### When a cycle faults (R250) -/

/-- R252, R176: the detail of `MemoryOutOfBounds` for `count` bytes from I on, when one of their addresses is >= 4096. -/
def dataFault (s : State) (count : Nat) : Option (FaultKind × FaultInfo) :=
  if 0 < count ∧ 4096 ≤ s.i.toNat + count - 1 then some (.memoryOutOfBounds, .addr (max s.i.toNat 4096)) else none

/-- Column "cause" of R250 for the operations that can fault, on the state before the cycle. -/
def operationFault (s : State) : Operation → Option (FaultKind × FaultInfo)
  | .op (.ret _)      => if s.stack.length = 0 then some (.stackUnderflow, .none) else none
  | .op (.call _)     => if s.cfg.stackCap = some s.stack.length then some (.stackOverflow, .none) else none
  | .op (.skp x)      =>
    if 15 < (s.readV x).toNat then some (.keyIndexOutOfRange, .key (s.readV x)) else none
  | .op (.sknp x)     =>
    if 15 < (s.readV x).toNat then some (.keyIndexOutOfRange, .key (s.readV x)) else none
  | .op (.ldBVx _)    => dataFault s 3
  | .op (.ldMemVx x)  => dataFault s (x.toNat + 1)
  | .op (.ldVxMem x)  => dataFault s (x.toNat + 1)
  | .op (.drw _ y n)  => dataFault s (min n.toNat (32 - (s.readV y).toNat % 32))
  | _                 => none

/-- R250, R259: the record of the fault that a cycle from `s` raises, if it raises one. The fetch is checked first. -/
def cycleFault (s : State) : Option FaultRecord :=
  if 4095 ≤ s.pc.toNat then some { kind := .fetchOutOfBounds, pc := s.pc, opcode := none, info := .none }
  else (operationFault s (decode s.cfg.strictDecode s.fetchWord)).map fun f =>
    { kind := f.1, pc := s.pc, opcode := some s.fetchWord, info := f.2 }

/-! ### Sprites -/

/-- R191: whether `Dxyn` from state `s` has a set sprite bit on cell `idx` of the framebuffer. Column and row are tested
each on its own (R193), and only rows below 32 are drawn (R192). -/
def spriteCovers (x y n : Nibble) (s : State) (idx : Nat) : Bool :=
  let ox   := (s.readV x).toNat % 64
  let oy   := (s.readV y).toNat % 32
  let col  := idx % 64
  let row  := idx / 64
  decide (ox ≤ col ∧ col < ox + 8 ∧ oy ≤ row ∧ row < oy + n.toNat ∧ row < 32) &&
    (s.loadByte (s.i.toNat + (row - oy))).getLsbD (7 - (col - ox))

/-! ### Ends of a program (R279) -/

/-- A machine that no fault has halted. -/
def State.running (s : State) : Prop := s.fault = none

/-- R279, D20: a program has ended at the stop address a claim names. A faulted state is never an end (R256). -/
def State.endedAt (s : State) (stop : Word) : Prop := s.running ∧ s.pc = stop

end Sys2Proof.Machine

namespace Sys2Proof

/-! ### What an operation may write -/

/-- The elements an operation may write when it raises no fault (R23, R25, R27 to R32, R51). -/
def Instr.writes : Instr → List Machine.Element
  | .cls _        => [.fb]
  | .ret _        => [.pc, .stack]
  | .jp _         => [.pc]
  | .call _       => [.pc, .stack]
  | .seImm _ _    => [.pc]
  | .sneImm _ _   => [.pc]
  | .seReg _ _ _  => [.pc]
  | .ldImm _ _    => [.v]
  | .addImm _ _   => [.v]
  | .ldReg _ _    => [.v]
  | .orReg _ _    => [.v]
  | .andReg _ _   => [.v]
  | .xorReg _ _   => [.v]
  | .addReg _ _   => [.v]
  | .subReg _ _   => [.v]
  | .shr _ _      => [.v]
  | .subnReg _ _  => [.v]
  | .shl _ _      => [.v]
  | .sneReg _ _ _ => [.pc]
  | .ldI _        => [.i]
  | .jpV0 _       => [.pc]
  | .rnd _ _      => [.v, .rnd]
  | .drw _ _ _    => [.v, .fb]
  | .skp _        => [.pc]
  | .sknp _       => [.pc]
  | .ldVxDt _     => [.v]
  | .ldVxK _      => [.v, .pc]
  | .ldDtVx _     => [.dt]
  | .ldStVx _     => [.st]
  | .addIVx _     => [.i]
  | .ldFVx _      => [.i]
  | .ldBVx _      => [.mem]
  | .ldMemVx _    => [.mem]
  | .ldVxMem _    => [.v]

/-- Column "writes" of R23: whether the operation may write the register `r`. -/
def Instr.writesReg (i : Instr) (r : Nibble) : Bool :=
  match i with
  | .cls _        => false
  | .ret _        => false
  | .jp _         => false
  | .call _       => false
  | .seImm _ _    => false
  | .sneImm _ _   => false
  | .seReg _ _ _  => false
  | .ldImm x _    => r == x
  | .addImm x _   => r == x
  | .ldReg x _    => r == x
  | .orReg x _    => r == x
  | .andReg x _   => r == x
  | .xorReg x _   => r == x
  | .addReg x _   => r == x || r == Machine.VF
  | .subReg x _   => r == x || r == Machine.VF
  | .shr x _      => r == x || r == Machine.VF
  | .subnReg x _  => r == x || r == Machine.VF
  | .shl x _      => r == x || r == Machine.VF
  | .sneReg _ _ _ => false
  | .ldI _        => false
  | .jpV0 _       => false
  | .rnd x _      => r == x
  | .drw _ _ _    => r == Machine.VF
  | .skp _        => false
  | .sknp _       => false
  | .ldVxDt x     => r == x
  | .ldVxK x      => r == x
  | .ldDtVx _     => false
  | .ldStVx _     => false
  | .addIVx _     => false
  | .ldFVx _      => false
  | .ldBVx _      => false
  | .ldMemVx _    => false
  | .ldVxMem x    => decide (r.toNat ≤ x.toNat)

/-- Column "reads" of R23: whether the operation reads the register `r`. -/
def Instr.readsReg (i : Instr) (r : Nibble) : Bool :=
  match i with
  | .cls _        => false
  | .ret _        => false
  | .jp _         => false
  | .call _       => false
  | .seImm x _    => r == x
  | .sneImm x _   => r == x
  | .seReg x y _  => r == x || r == y
  | .ldImm _ _    => false
  | .addImm x _   => r == x
  | .ldReg _ y    => r == y
  | .orReg x y    => r == x || r == y
  | .andReg x y   => r == x || r == y
  | .xorReg x y   => r == x || r == y
  | .addReg x y   => r == x || r == y
  | .subReg x y   => r == x || r == y
  | .shr x _      => r == x
  | .subnReg x y  => r == x || r == y
  | .shl x _      => r == x
  | .sneReg x y _ => r == x || r == y
  | .ldI _        => false
  | .jpV0 _       => r == 0
  | .rnd _ _      => false
  | .drw x y _    => r == x || r == y
  | .skp x        => r == x
  | .sknp x       => r == x
  | .ldVxDt _     => false
  | .ldVxK _      => false
  | .ldDtVx x     => r == x
  | .ldStVx x     => r == x
  | .addIVx x     => r == x
  | .ldFVx x      => r == x
  | .ldBVx x      => r == x
  | .ldMemVx x    => decide (r.toNat ≤ x.toNat)
  | .ldVxMem _    => false

/-! ### Rows of the opcode map -/

/-- The encoding a rule gives: every word that matches decodes to the instruction `make` reads from it, under the default
mask and under the strict one (R76). -/
def RowDecodes (mtch mask maskStrict : Word) (make : Word → Instr) : Prop :=
  ∀ (strict : Bool) (w : Word), w &&& (if strict then maskStrict else mask) = mtch → decode strict w = .op (make w)

end Sys2Proof
end

