-- ==== Sys2Proof/Certificates/Slice0/Obligations.lean ====
section
/-! DEFINITION. The statements about the model, one `def Obligations.<Name> : Prop` each. `s` is a state with PC as the
statement says: `exec` runs on `s.advance`, the state after the fetch advance (R102), where the rule names the
instruction's own address `p`, which is then `s.pc`. -/

open Sys2Proof Sys2Proof.Machine

/-! ### Encoding -/

/-- R71: the operand fields are the named bits of the opcode. -/
def Obligations.OpcodeFieldsAreBitSlices : Prop :=
  ∀ w : Word,
    (opX w).toNat = w.toNat / 256 % 16 ∧ (opY w).toNat = w.toNat / 16 % 16 ∧ (opKK w).toNat = w.toNat % 256 ∧
    (opNNN w).toNat = w.toNat % 4096 ∧ (opN w).toNat = w.toNat % 16 ∧ (opFamily w).toNat = w.toNat / 4096

/-- Words written out from the encoding table of R76 decode to the instruction they stand for, one of each family. -/
def Obligations.WrittenOutWordsDecode : Prop :=
  decode false 0b0000000011101110 = .op (.ret 0) ∧ decode false 0b0010001100000000 = .op (.call 0x300) ∧
  decode false 0b0111001000001010 = .op (.addImm 2 0x0A) ∧ decode false 0b1000000100100101 = .op (.subReg 1 2) ∧
  decode false 0b1010000100100011 = .op (.ldI 0x123) ∧ decode false 0b1101000000010101 = .op (.drw 0 1 5) ∧
  decode false 0b1110010010100001 = .op (.sknp 4) ∧ decode false 0b1111001001010101 = .op (.ldMemVx 2)

/-- Decoding the word of any well-formed instruction gives the instruction back, under both settings of STRICT_DECODE. -/
def Obligations.DecodeOfEncodeIsIdentity : Prop :=
  ∀ (strict : Bool) (i : Instr), i.wellFormed strict = true → decode strict (encode i) = .op i

/-- Encoding what a word decodes to gives the word back, and only well-formed instructions are decoded. That no bit is lost
rests on the model's choice to keep in `Instr` the bits the operation does not use (the Y of 8xy6 and 8xyE, the nibble `u`
of 00E0, 00EE, 5xy0 and 9xy0), which R75 drops: log entry 6. -/
def Obligations.EncodeOfDecodeIsIdentity : Prop :=
  ∀ (strict : Bool) (w : Word) (i : Instr), decode strict w = .op i → encode i = w ∧ i.wellFormed strict = true

/-- R76: a word decodes to the one row it matches, no word matches two rows, and a word that matches none is `NOP`. -/
def Obligations.OpcodeMapIsUnambiguousAndComplete : Prop :=
  opcodeMap.length = 34 ∧
  ∀ (strict : Bool) (w : Word),
    (∀ (j k : Nat) (r q : OpcodeRow), opcodeMap[j]? = some r → opcodeMap[k]? = some q →
      r.covers strict w = true → q.covers strict w = true → j = k) ∧
    (∀ r ∈ opcodeMap, r.covers strict w = true → decode strict w = .op (r.make w)) ∧
    ((∀ r ∈ opcodeMap, r.covers strict w = false) → decode strict w = .nop)

/-- R78: the words of the NOP space, exactly, and what a cycle on one of them does. -/
def Obligations.UndefinedWordsAreNops : Prop :=
  (∀ (strict : Bool) (w : Word), decode strict w = .nop ↔
    (opFamily w = 0x0 ∧ opKK w ≠ 0xE0 ∧ opKK w ≠ 0xEE) ∨
    (opFamily w = 0x8 ∧ opN w ∈ [0x8, 0x9, 0xA, 0xB, 0xC, 0xD, 0xF]) ∨
    (opFamily w = 0xE ∧ opKK w ≠ 0x9E ∧ opKK w ≠ 0xA1) ∨
    (opFamily w = 0xF ∧ opKK w ∉ [0x07, 0x0A, 0x15, 0x18, 0x1E, 0x29, 0x33, 0x55, 0x65]) ∨
    (strict = true ∧
      ((opFamily w = 0x0 ∧ (opKK w = 0xE0 ∨ opKK w = 0xEE) ∧ opX w ≠ 0) ∨
       ((opFamily w = 0x5 ∨ opFamily w = 0x9) ∧ opN w ≠ 0)))) ∧
  (∀ s : State, s.fault = none → s.pc.toNat < 4095 → decode s.cfg.strictDecode s.fetchWord = .nop →
    ∃ t, step s = .next t ∧ t.pc = s.pc + 2 ∧ t.dt.toNat = s.dt.toNat - 1 ∧ t.st.toNat = s.st.toNat - 1 ∧
      OnlyChanges [.pc, .dt, .st] s t)

/-! ### The cycle -/

/-- R101 (the fault is the spec's own decision D6): the fetch is big-endian from PC and PC + 1 at any PC below 4095, and faults from 4095 on. -/
def Obligations.FetchIsBigEndianAndBounded : Prop :=
  ∀ s : State, s.fault = none →
    (4095 ≤ s.pc.toNat → step s = .next { s with fault := some ⟨.fetchOutOfBounds, s.pc, none, .none⟩ }) ∧
    (s.pc.toNat < 4095 → ∃ op : Word,
      op.toNat = (s.loadByte s.pc.toNat).toNat * 256 + (s.loadByte (s.pc.toNat + 1)).toNat ∧
      step s = s.runWord op)

/-- When the bytes at PC decode to an instruction, a step is the fetch advance, `exec` of that instruction, and the timer
tick unless a fault was latched. -/
def Obligations.StepRunsTheDecodedInstruction : Prop :=
  ∀ (s : State) (i : Instr) (t : State), s.fault = none → s.pc.toNat < 4095 →
    decode s.cfg.strictDecode s.fetchWord = .op i → exec i { s with pc := s.pc + 2 } = .next t →
    step s = .next (if t.fault = none then t.tick else t)

/-- A machine whose memory holds the two bytes of a well-formed instruction at PC runs exactly that instruction. -/
def Obligations.EncodedInstructionRuns : Prop :=
  ∀ (s : State) (i : Instr), s.fault = none → s.pc.toNat < 4095 → i.wellFormed s.cfg.strictDecode = true →
    s.loadByte s.pc.toNat = highByte (encode i) → s.loadByte (s.pc.toNat + 1) = lowByte (encode i) →
    step s = finishCycle (exec i s.advance)

/-- A word placed where the machine fetches is the word the next step runs. -/
def Obligations.PlacedWordRuns : Prop :=
  ∀ (s : State) (w : Nat), w < 65536 → s.fault = none → s.pc.toNat < 4095 →
    step (s.withFetchWord 16 w) = (s.withFetchWord 16 w).runWord (BitVec.ofNat 16 w)

/-- R105: after an operation that latched no fault both timers drop by 1 and stop at 0 (the subtraction of naturals
stops at 0), and the cycle changes nothing else. -/
def Obligations.TimersTickAfterTheOperation : Prop :=
  ∀ s u : State, s.fault = none → s.pc.toNat < 4095 →
    executeOperation (decode s.cfg.strictDecode s.fetchWord) s.advance = .next u → u.fault = none →
    ∃ t, step s = .next t ∧ t.dt.toNat = u.dt.toNat - 1 ∧ t.st.toNat = u.st.toNat - 1 ∧ OnlyChanges [.dt, .st] u t

/-- R107 (the spec's own decision D9): once FAULT is set, the `cycle` transaction changes nothing and returns the latched
record, and only `reset` clears it. -/
def Obligations.HaltedMachineStaysHalted : Prop :=
  ∀ (s : State) (r : FaultRecord), s.fault = some r →
    transact s .cycle = (s, .faulted r) ∧
    (∀ tr : Transaction, tr ≠ .reset → (transact s tr).1.fault = some r) ∧ (transact s .reset).1.fault = none

/-- A step stops exactly when the machine is already halted, with the latched record as its reason. That a halted machine
STOPS THE STEP (and does not step to itself) is the model's choice of form for R107: log entry 3. -/
def Obligations.StepStopsExactlyWhenHalted : Prop :=
  ∀ (s : State) (r : FaultRecord), step s = .fault (.halted r) ↔ s.fault = some r

/-- R256 (the spec's own decision D9): a cycle that faults leaves every element but FAULT as it was, records the kind, the
instruction's address and opcode and the detail of R250, and halts the machine until `reset`. A faulted state is never an
end of a program. -/
def Obligations.FaultsArePreciseAndTerminal : Prop :=
  ∀ (s t : State) (r : FaultRecord), s.fault = none → step s = .next t → t.fault = some r →
    t = { s with fault := some r } ∧ cycleFault s = some r ∧ r.pc = s.pc ∧
    r.opcode = (if 4095 ≤ s.pc.toNat then none else some s.fetchWord) ∧
    transact t .cycle = (t, .faulted r) ∧ (∀ tr : Transaction, tr ≠ .reset → (transact t tr).1.fault = some r) ∧
    ∀ stop, ¬t.endedAt stop

/-- R250 (the codes are the spec's own, D24): a cycle raises exactly the faults of the table, each for its cause and with its detail, and no others. -/
def Obligations.CyclesFaultExactlyAsListed : Prop :=
  (∀ s : State, s.fault = none → ∃ t, step s = .next t ∧ t.fault = cycleFault s) ∧
  FaultKind.fetchOutOfBounds.code = 1 ∧ FaultKind.memoryOutOfBounds.code = 2 ∧ FaultKind.keyIndexOutOfRange.code = 3 ∧
  FaultKind.stackUnderflow.code = 4 ∧ FaultKind.stackOverflow.code = 5

/-- No operation stops the machine or is refused: every instruction answers a next state from every state, and so does
every cycle of a machine that is not halted. -/
def Obligations.EveryOperationAnswersAState : Prop :=
  (∀ (i : Instr) (s : State), ∃ t, exec i s = .next t) ∧ (∀ s : State, s.fault = none → ∃ t, step s = .next t)

/-! ### Control flow -/

/-- R120. -/
def Obligations.ReturnPopsTheStack : Prop :=
  RowDecodes 0x00EE 0xF0FF 0xFFFF (fun w => .ret (opX w)) ∧
  (∀ (u : Nibble) (w : Word) (rest : List Word) (s : State), s.stack = w :: rest →
    ∃ t, exec (.ret u) s = .next t ∧ t.pc = w ∧ t.stack = rest ∧ OnlyChanges [.pc, .stack] s t) ∧
  (∀ (u : Nibble) (s : State), s.stack = [] →
    exec (.ret u) s.advance = .next { s with fault := some ⟨.stackUnderflow, s.pc, some (encode (.ret u)), .none⟩ })

/-- R121. -/
def Obligations.JumpSetsPc : Prop :=
  RowDecodes 0x1000 0xF000 0xF000 (fun w => .jp (opNNN w)) ∧
  ∀ (nnn : Addr12) (s : State), ∃ t, exec (.jp nnn) s = .next t ∧ t.pc.toNat = nnn.toNat ∧ OnlyChanges [.pc] s t

/-- R122: the pushed value is the address after the call, and the call overflows exactly at STACK_CAP entries. -/
def Obligations.CallPushesReturnAddress : Prop :=
  RowDecodes 0x2000 0xF000 0xF000 (fun w => .call (opNNN w)) ∧
  (∀ (nnn : Addr12) (s : State), s.cfg.stackCap ≠ some s.stack.length →
    ∃ t, exec (.call nnn) s.advance = .next t ∧ t.stack = (s.pc + 2) :: s.stack ∧ t.pc.toNat = nnn.toNat ∧
      OnlyChanges [.pc, .stack] s t) ∧
  (∀ (nnn : Addr12) (s : State), s.cfg.stackCap = some s.stack.length →
    exec (.call nnn) s.advance =
      .next { s with fault := some ⟨.stackOverflow, s.pc, some (encode (.call nnn)), .none⟩ })

/-- R123: the sum is exact, never reduced. -/
def Obligations.JumpWithOffsetAddsV0 : Prop :=
  RowDecodes 0xB000 0xF000 0xF000 (fun w => .jpV0 (opNNN w)) ∧
  ∀ (nnn : Addr12) (s : State), ∃ t, exec (.jpV0 nnn) s = .next t ∧
    t.pc.toNat = (s.readV 0).toNat + nnn.toNat ∧ OnlyChanges [.pc] s t

/-- R124, R125: a taken skip leaves PC = p + 4, an untaken one p + 2. -/
def Obligations.ImmediateSkips : Prop :=
  RowDecodes 0x3000 0xF000 0xF000 (fun w => .seImm (opX w) (opKK w)) ∧
  RowDecodes 0x4000 0xF000 0xF000 (fun w => .sneImm (opX w) (opKK w)) ∧
  ∀ (x : Nibble) (kk : Byte) (s : State),
    (∃ t, exec (.seImm x kk) s.advance = .next t ∧ t.pc = (if s.readV x = kk then s.pc + 4 else s.pc + 2) ∧
      OnlyChanges [.pc] s t) ∧
    (∃ t, exec (.sneImm x kk) s.advance = .next t ∧ t.pc = (if s.readV x = kk then s.pc + 2 else s.pc + 4) ∧
      OnlyChanges [.pc] s t)

/-- R126, R127. The strict mask of both rows is 0xF00F. -/
def Obligations.RegisterSkips : Prop :=
  RowDecodes 0x5000 0xF000 0xF00F (fun w => .seReg (opX w) (opY w) (opN w)) ∧
  RowDecodes 0x9000 0xF000 0xF00F (fun w => .sneReg (opX w) (opY w) (opN w)) ∧
  ∀ (x y u : Nibble) (s : State),
    (∃ t, exec (.seReg x y u) s.advance = .next t ∧ t.pc = (if s.readV x = s.readV y then s.pc + 4 else s.pc + 2) ∧
      OnlyChanges [.pc] s t) ∧
    (∃ t, exec (.sneReg x y u) s.advance = .next t ∧ t.pc = (if s.readV x = s.readV y then s.pc + 2 else s.pc + 4) ∧
      OnlyChanges [.pc] s t)

/-! ### Register loads and the ALU -/

/-- R140, R142. -/
def Obligations.RegisterLoads : Prop :=
  RowDecodes 0x6000 0xF000 0xF000 (fun w => .ldImm (opX w) (opKK w)) ∧
  RowDecodes 0x8000 0xF00F 0xF00F (fun w => .ldReg (opX w) (opY w)) ∧
  (∀ (x : Nibble) (kk : Byte) (s : State), ∃ t, exec (.ldImm x kk) s = .next t ∧
    t.readV x = kk ∧ RegsKeptBut [x] s t ∧ OnlyChanges [.v] s t) ∧
  (∀ (x y : Nibble) (s : State), ∃ t, exec (.ldReg x y) s = .next t ∧
    t.readV x = s.readV y ∧ RegsKeptBut [x] s t ∧ OnlyChanges [.v] s t)

/-- R141: the sum wraps and no flag is written. -/
def Obligations.AddImmediateWrapsWithoutFlag : Prop :=
  RowDecodes 0x7000 0xF000 0xF000 (fun w => .addImm (opX w) (opKK w)) ∧
  ∀ (x : Nibble) (kk : Byte) (s : State), ∃ t, exec (.addImm x kk) s = .next t ∧
    (t.readV x).toNat = ((s.readV x).toNat + kk.toNat) % 256 ∧ RegsKeptBut [x] s t ∧ OnlyChanges [.v] s t

/-- R143, R144, R145: bit by bit, with VF kept unless it is the destination. -/
def Obligations.LogicOperationsAreBitwise : Prop :=
  RowDecodes 0x8001 0xF00F 0xF00F (fun w => .orReg (opX w) (opY w)) ∧
  RowDecodes 0x8002 0xF00F 0xF00F (fun w => .andReg (opX w) (opY w)) ∧
  RowDecodes 0x8003 0xF00F 0xF00F (fun w => .xorReg (opX w) (opY w)) ∧
  ∀ (x y : Nibble) (s : State),
    (∃ t, exec (.orReg x y) s = .next t ∧
      (∀ k, k < 8 → (t.readV x).getLsbD k = ((s.readV x).getLsbD k || (s.readV y).getLsbD k)) ∧
      RegsKeptBut [x] s t ∧ OnlyChanges [.v] s t) ∧
    (∃ t, exec (.andReg x y) s = .next t ∧
      (∀ k, k < 8 → (t.readV x).getLsbD k = ((s.readV x).getLsbD k && (s.readV y).getLsbD k)) ∧
      RegsKeptBut [x] s t ∧ OnlyChanges [.v] s t) ∧
    (∃ t, exec (.xorReg x y) s = .next t ∧
      (∀ k, k < 8 → (t.readV x).getLsbD k = ((s.readV x).getLsbD k ^^ (s.readV y).getLsbD k)) ∧
      RegsKeptBut [x] s t ∧ OnlyChanges [.v] s t)

/-- R146: the carry is written last, so it is what VF holds even when VF is the destination. -/
def Obligations.AddWritesSumThenCarry : Prop :=
  RowDecodes 0x8004 0xF00F 0xF00F (fun w => .addReg (opX w) (opY w)) ∧
  ∀ (x y : Nibble) (s : State), ∃ t, exec (.addReg x y) s = .next t ∧
    (x ≠ VF → (t.readV x).toNat = ((s.readV x).toNat + (s.readV y).toNat) % 256) ∧
    (t.readV VF).toNat = (if (s.readV x).toNat + (s.readV y).toNat > 255 then 1 else 0) ∧
    RegsKeptBut [x, VF] s t ∧ OnlyChanges [.v] s t

/-- R147, with the corner cases it spells out for VF as an operand under each ALU_FLAG_ORDER. `a`, `b` are the operands
before the instruction and `f` the flag. -/
def Obligations.SubtractSetsGreaterFlag : Prop :=
  RowDecodes 0x8005 0xF00F 0xF00F (fun w => .subReg (opX w) (opY w)) ∧
  ∀ (x y : Nibble) (s : State), ∃ t, exec (.subReg x y) s = .next t ∧
    (let a := (s.readV x).toNat
     let b := (s.readV y).toNat
     let f := if a > b then 1 else 0
     if x = y then (t.readV x).toNat = 0 ∧ (t.readV VF).toNat = 0
     else if x = VF then
       (s.cfg.aluFlagOrder = .sequential → (t.readV VF).toNat = (f + 256 - b) % 256) ∧
       (s.cfg.aluFlagOrder = .simultaneous → (t.readV VF).toNat = (a + 256 - b) % 256)
     else if y = VF then
       (t.readV VF).toNat = f ∧
       (s.cfg.aluFlagOrder = .sequential → (t.readV x).toNat = (a + 256 - f) % 256) ∧
       (s.cfg.aluFlagOrder = .simultaneous → (t.readV x).toNat = (a + 256 - b) % 256)
     else (t.readV VF).toNat = f ∧ (t.readV x).toNat = (a + 256 - b) % 256) ∧
    RegsKeptBut [x, VF] s t ∧ OnlyChanges [.v] s t

/-- R149: R147 with the operands the other way round. -/
def Obligations.ReverseSubtractSetsGreaterFlag : Prop :=
  RowDecodes 0x8007 0xF00F 0xF00F (fun w => .subnReg (opX w) (opY w)) ∧
  ∀ (x y : Nibble) (s : State), ∃ t, exec (.subnReg x y) s = .next t ∧
    (let a := (s.readV x).toNat
     let b := (s.readV y).toNat
     let f := if b > a then 1 else 0
     if x = y then (t.readV x).toNat = 0 ∧ (t.readV VF).toNat = 0
     else if x = VF then
       (s.cfg.aluFlagOrder = .sequential → (t.readV VF).toNat = (b + 256 - f) % 256) ∧
       (s.cfg.aluFlagOrder = .simultaneous → (t.readV VF).toNat = (b + 256 - a) % 256)
     else if y = VF then
       (t.readV VF).toNat = f ∧
       (s.cfg.aluFlagOrder = .sequential → (t.readV x).toNat = (f + 256 - a) % 256) ∧
       (s.cfg.aluFlagOrder = .simultaneous → (t.readV x).toNat = (b + 256 - a) % 256)
     else (t.readV VF).toNat = f ∧ (t.readV x).toNat = (b + 256 - a) % 256) ∧
    RegsKeptBut [x, VF] s t ∧ OnlyChanges [.v] s t

/-- R148: VF gets the bit shifted out. `V[Y]` is not read, and not written unless it is Vx or VF. -/
def Obligations.ShiftRightDropsBitIntoVf : Prop :=
  RowDecodes 0x8006 0xF00F 0xF00F (fun w => .shr (opX w) (opY w)) ∧
  ∀ (x y : Nibble) (s : State), ∃ t, exec (.shr x y) s = .next t ∧
    (let a := (s.readV x).toNat
     if x = VF then
       (s.cfg.aluFlagOrder = .sequential → (t.readV VF).toNat = 0) ∧
       (s.cfg.aluFlagOrder = .simultaneous → (t.readV VF).toNat = a / 2)
     else (t.readV VF).toNat = a % 2 ∧ (t.readV x).toNat = a / 2) ∧
    RegsKeptBut [x, VF] s t ∧ OnlyChanges [.v] s t

/-- R150: VF gets the bit shifted out. -/
def Obligations.ShiftLeftDropsBitIntoVf : Prop :=
  RowDecodes 0x800E 0xF00F 0xF00F (fun w => .shl (opX w) (opY w)) ∧
  ∀ (x y : Nibble) (s : State), ∃ t, exec (.shl x y) s = .next t ∧
    (let a := (s.readV x).toNat
     if x = VF then
       (s.cfg.aluFlagOrder = .sequential → (t.readV VF).toNat = a / 128 * 2) ∧
       (s.cfg.aluFlagOrder = .simultaneous → (t.readV VF).toNat = a * 2 % 256)
     else (t.readV VF).toNat = a / 128 ∧ (t.readV x).toNat = a * 2 % 256) ∧
    RegsKeptBut [x, VF] s t ∧ OnlyChanges [.v] s t

/-- The random load of R151: the next byte of the random input, whatever it is, masked by kk, and one byte taken. How the
input is represented (`Config.randomByte`, counted by `rndCount`) is the model's choice: log entry 2. The statement holds
for every byte, since `Config.randomByte` has no body. -/
def Obligations.RandomLoadMasksOneByte : Prop :=
  RowDecodes 0xC000 0xF000 0xF000 (fun w => .rnd (opX w) (opKK w)) ∧
  ∀ (x : Nibble) (kk : Byte) (s : State), ∃ t, exec (.rnd x kk) s = .next t ∧
    (∀ k, k < 8 → (t.readV x).getLsbD k = ((Config.randomByte s.rndCount).getLsbD k && kk.getLsbD k)) ∧
    (kk = 0 → t.readV x = 0) ∧ t.rndCount = s.rndCount + 1 ∧ RegsKeptBut [x] s t ∧ OnlyChanges [.v, .rnd] s t

/-- R153: when neither operand is VF the two flag orders give the same result. -/
def Obligations.FlagOrdersAgreeAwayFromVf : Prop :=
  ∀ (x y : Nibble) (s : State) (o : AluFlagOrder), x ≠ VF → y ≠ VF →
    ∀ i ∈ [Instr.subReg x y, Instr.shr x y, Instr.subnReg x y, Instr.shl x y],
      ∃ t, exec i s = .next t ∧
        exec i { s with cfg := { s.cfg with aluFlagOrder := o } } =
          .next { t with cfg := { s.cfg with aluFlagOrder := o } }

/-! ### Index register and memory -/

/-- R170. -/
def Obligations.IndexLoad : Prop :=
  RowDecodes 0xA000 0xF000 0xF000 (fun w => .ldI (opNNN w)) ∧
  ∀ (nnn : Addr12) (s : State), ∃ t, exec (.ldI nnn) s = .next t ∧ t.i.toNat = nnn.toNat ∧ OnlyChanges [.i] s t

/-- R171 (the wrap is the spec's own decision D11): a 16-bit add that wraps, VF kept. -/
def Obligations.IndexAddWraps : Prop :=
  RowDecodes 0xF01E 0xF0FF 0xF0FF (fun w => .addIVx (opX w)) ∧
  ∀ (x : Nibble) (s : State), ∃ t, exec (.addIVx x) s = .next t ∧
    t.i.toNat = (s.i.toNat + (s.readV x).toNat) % 65536 ∧ OnlyChanges [.i] s t

/-- R172: no mask on V[X] (the spec's own decision D10). -/
def Obligations.IndexPointsAtGlyph : Prop :=
  RowDecodes 0xF029 0xF0FF 0xF0FF (fun w => .ldFVx (opX w)) ∧
  ∀ (x : Nibble) (s : State), ∃ t, exec (.ldFVx x) s = .next t ∧
    t.i.toNat = 0x50 + 5 * (s.readV x).toNat ∧ OnlyChanges [.i] s t

/-- R173 (the fault is the spec's own decision D7). -/
def Obligations.BcdStoresThreeDigits : Prop :=
  RowDecodes 0xF033 0xF0FF 0xF0FF (fun w => .ldBVx (opX w)) ∧
  (∀ (x : Nibble) (s : State), s.i.toNat + 2 < 4096 →
    ∃ t, exec (.ldBVx x) s = .next t ∧
      (t.loadByte s.i.toNat).toNat = (s.readV x).toNat / 100 ∧
      (t.loadByte (s.i.toNat + 1)).toNat = (s.readV x).toNat / 10 % 10 ∧
      (t.loadByte (s.i.toNat + 2)).toNat = (s.readV x).toNat % 10 ∧
      MemKeptBut s.i.toNat 3 s t ∧ OnlyChanges [.mem] s t) ∧
  (∀ (x : Nibble) (s : State), 4096 ≤ s.i.toNat + 2 →
    exec (.ldBVx x) s.advance =
      .next { s with fault := some ⟨.memoryOutOfBounds, s.pc, some (encode (.ldBVx x)), .addr (max s.i.toNat 4096)⟩ })

/-- R174 (the spec's own decisions D7 and D12). -/
def Obligations.RegisterBlockStore : Prop :=
  RowDecodes 0xF055 0xF0FF 0xF0FF (fun w => .ldMemVx (opX w)) ∧
  (∀ (x : Nibble) (s : State), s.i.toNat + x.toNat < 4096 →
    ∃ t, exec (.ldMemVx x) s = .next t ∧
      (∀ r : Nibble, r.toNat ≤ x.toNat → t.loadByte (s.i.toNat + r.toNat) = s.readV r) ∧
      MemKeptBut s.i.toNat (x.toNat + 1) s t ∧ OnlyChanges [.mem] s t) ∧
  (∀ (x : Nibble) (s : State), 4096 ≤ s.i.toNat + x.toNat →
    exec (.ldMemVx x) s.advance =
      .next { s with fault := some ⟨.memoryOutOfBounds, s.pc, some (encode (.ldMemVx x)), .addr (max s.i.toNat 4096)⟩ })

/-- R175 (the spec's own decisions D7 and D12). -/
def Obligations.RegisterBlockLoad : Prop :=
  RowDecodes 0xF065 0xF0FF 0xF0FF (fun w => .ldVxMem (opX w)) ∧
  (∀ (x : Nibble) (s : State), s.i.toNat + x.toNat < 4096 →
    ∃ t, exec (.ldVxMem x) s = .next t ∧
      (∀ r : Nibble, r.toNat ≤ x.toNat → t.readV r = s.loadByte (s.i.toNat + r.toNat)) ∧
      (∀ r : Nibble, x.toNat < r.toNat → t.readV r = s.readV r) ∧ OnlyChanges [.v] s t) ∧
  (∀ (x : Nibble) (s : State), 4096 ≤ s.i.toNat + x.toNat →
    exec (.ldVxMem x) s.advance =
      .next { s with fault := some ⟨.memoryOutOfBounds, s.pc, some (encode (.ldVxMem x)), .addr (max s.i.toNat 4096)⟩ })

/-- What Fx55 stores is what a later fetch of those bytes reads, with nothing between them. -/
def Obligations.StoredRegistersAreFetched : Prop :=
  ∀ (x r : Nibble) (s : State), s.i.toNat + x.toNat < 4096 → r.toNat < x.toNat →
    ∃ t, exec (.ldMemVx x) s = .next t ∧
      ∀ u : State, u.mem = t.mem → u.cfg = t.cfg → u.pc.toNat = s.i.toNat + r.toNat →
        u.fetchWord = wordOfBytes (s.readV r) (s.readV (r + 1))

/-! ### Display -/

/-- R190. -/
def Obligations.ClearTurnsEveryCellOff : Prop :=
  RowDecodes 0x00E0 0xF0FF 0xFFFF (fun w => .cls (opX w)) ∧
  ∀ (u : Nibble) (s : State), ∃ t, exec (.cls u) s = .next t ∧ (∀ idx, idx < 2048 → t.fb.cell idx = false) ∧
    OnlyChanges [.fb] s t

/-- R191 (with the corner cases of R192 and R193): every cell under a set bit of a drawn row is flipped and no other, and
VF is 1 exactly when one of them was on. A sprite byte of a drawn row out of range faults before anything is drawn. -/
def Obligations.DrawXorsTheSprite : Prop :=
  RowDecodes 0xD000 0xF000 0xF000 (fun w => .drw (opX w) (opY w) (opN w)) ∧
  (∀ (x y n : Nibble) (s : State),
    n = 0 ∨ s.i.toNat + min n.toNat (32 - (s.readV y).toNat % 32) ≤ 4096 →
    ∃ t, exec (.drw x y n) s = .next t ∧
      (∀ idx, idx < 2048 → t.fb.cell idx = (s.fb.cell idx ^^ spriteCovers x y n s idx)) ∧
      ((∃ idx, idx < 2048 ∧ spriteCovers x y n s idx = true ∧ s.fb.cell idx = true) → t.readV VF = 1) ∧
      ((∀ idx, idx < 2048 → spriteCovers x y n s idx = true → s.fb.cell idx = false) → t.readV VF = 0) ∧
      RegsKeptBut [VF] s t ∧ OnlyChanges [.v, .fb] s t) ∧
  (∀ (x y n : Nibble) (s : State),
    n ≠ 0 → 4096 < s.i.toNat + min n.toNat (32 - (s.readV y).toNat % 32) →
    exec (.drw x y n) s.advance =
      .next { s with fault := some ⟨.memoryOutOfBounds, s.pc, some (encode (.drw x y n)), .addr (max s.i.toNat 4096)⟩ })

/-- Drawing the same sprite twice at the same place gives the framebuffer back, and the second draw collides exactly when
the first one turned a cell on. -/
def Obligations.DrawTwiceRestoresTheDisplay : Prop :=
  ∀ (x y n : Nibble) (s t u : State), x ≠ VF → y ≠ VF →
    s.i.toNat + min n.toNat (32 - (s.readV y).toNat % 32) ≤ 4096 →
    exec (.drw x y n) s = .next t → exec (.drw x y n) t = .next u →
    (∀ idx, idx < 2048 → u.fb.cell idx = s.fb.cell idx) ∧
    (u.readV VF = 1 ↔ ∃ idx, idx < 2048 ∧ t.fb.cell idx = true ∧ s.fb.cell idx = false)

/-! ### Keys and timers -/

/-- R210, R211, R216 (the fault is the spec's own decision D8). -/
def Obligations.KeySkips : Prop :=
  RowDecodes 0xE09E 0xF0FF 0xF0FF (fun w => .skp (opX w)) ∧
  RowDecodes 0xE0A1 0xF0FF 0xF0FF (fun w => .sknp (opX w)) ∧
  (∀ (x : Nibble) (s : State), (s.readV x).toNat ≤ 15 →
    (∃ t, exec (.skp x) s.advance = .next t ∧
      t.pc = (if s.keyPressed (s.readV x).toNat then s.pc + 4 else s.pc + 2) ∧ OnlyChanges [.pc] s t) ∧
    (∃ t, exec (.sknp x) s.advance = .next t ∧
      t.pc = (if s.keyPressed (s.readV x).toNat then s.pc + 2 else s.pc + 4) ∧ OnlyChanges [.pc] s t)) ∧
  (∀ (x : Nibble) (s : State), 15 < (s.readV x).toNat →
    exec (.skp x) s.advance =
      .next { s with fault := some ⟨.keyIndexOutOfRange, s.pc, some (encode (.skp x)), .key (s.readV x)⟩ } ∧
    exec (.sknp x) s.advance =
      .next { s with fault := some ⟨.keyIndexOutOfRange, s.pc, some (encode (.sknp x)), .key (s.readV x)⟩ })

/-- R212: with no key pressed PC goes back to the instruction, whose cycle only ticks the timers. With one pressed, Vx gets
the lowest. -/
def Obligations.KeyWaitPollsTheLowestKey : Prop :=
  RowDecodes 0xF00A 0xF0FF 0xF0FF (fun w => .ldVxK (opX w)) ∧
  (∀ (x : Nibble) (s : State), (∀ k, k < 16 → s.keyPressed k = false) →
    (∃ t, exec (.ldVxK x) s.advance = .next t ∧ OnlyChanges [] s t) ∧
    (s.fault = none → s.pc.toNat < 4095 → decode s.cfg.strictDecode s.fetchWord = .op (.ldVxK x) →
      ∃ t, step s = .next t ∧ t.dt.toNat = s.dt.toNat - 1 ∧ t.st.toNat = s.st.toNat - 1 ∧
        OnlyChanges [.dt, .st] s t)) ∧
  (∀ (x : Nibble) (k : Nat) (s : State), k < 16 → s.keyPressed k = true → (∀ j, j < k → s.keyPressed j = false) →
    ∃ t, exec (.ldVxK x) s = .next t ∧ (t.readV x).toNat = k ∧ RegsKeptBut [x] s t ∧ OnlyChanges [.v] s t)

/-- R213: the value before the cycle's tick. -/
def Obligations.DelayTimerIsReadBeforeTheTick : Prop :=
  RowDecodes 0xF007 0xF0FF 0xF0FF (fun w => .ldVxDt (opX w)) ∧
  (∀ (x : Nibble) (s : State), ∃ t, exec (.ldVxDt x) s = .next t ∧ t.readV x = s.dt ∧ RegsKeptBut [x] s t ∧
    OnlyChanges [.v] s t) ∧
  (∀ (x : Nibble) (s : State), s.fault = none → s.pc.toNat < 4095 →
    decode s.cfg.strictDecode s.fetchWord = .op (.ldVxDt x) →
    ∃ t, step s = .next t ∧ t.readV x = s.dt ∧ t.dt.toNat = s.dt.toNat - 1)

/-- R214, R215: the timer gets V[X], and the tick of the same cycle follows. -/
def Obligations.TimersAreSetThenTick : Prop :=
  RowDecodes 0xF015 0xF0FF 0xF0FF (fun w => .ldDtVx (opX w)) ∧
  RowDecodes 0xF018 0xF0FF 0xF0FF (fun w => .ldStVx (opX w)) ∧
  (∀ (x : Nibble) (s : State),
    (∃ t, exec (.ldDtVx x) s = .next t ∧ t.dt = s.readV x ∧ OnlyChanges [.dt] s t) ∧
    (∃ t, exec (.ldStVx x) s = .next t ∧ t.st = s.readV x ∧ OnlyChanges [.st] s t)) ∧
  (∀ (x : Nibble) (s : State), s.fault = none → s.pc.toNat < 4095 →
    (decode s.cfg.strictDecode s.fetchWord = .op (.ldDtVx x) →
      ∃ t, step s = .next t ∧ t.dt.toNat = (s.readV x).toNat - 1 ∧ t.st.toNat = s.st.toNat - 1) ∧
    (decode s.cfg.strictDecode s.fetchWord = .op (.ldStVx x) →
      ∃ t, step s = .next t ∧ t.st.toNat = (s.readV x).toNat - 1 ∧ t.dt.toNat = s.dt.toNat - 1))

/-! ### Host transactions -/

/-- R231. -/
def Obligations.LoadProgramCopiesOrRejects : Prop :=
  ∀ (s : State) (bytes : List Byte),
    (bytes.length ≤ 3584 → ∃ t, transact s (.loadProgram bytes) = (t, .ok) ∧
      (∀ k, k < bytes.length → t.loadByte (0x200 + k) = bytes.getD k 0) ∧
      MemKeptBut 0x200 bytes.length s t ∧ OnlyChanges [.mem] s t) ∧
    (3584 < bytes.length → transact s (.loadProgram bytes) = (s, .hostError .programTooLarge))

/-- R232, R233 (the error result is the spec's own decision D17). -/
def Obligations.KeyTransactionsSetOneKey : Prop :=
  ∀ (s : State) (k : Int),
    (0 ≤ k ∧ k ≤ 15 →
      (∃ t, transact s (.setKey k) = (t, .ok) ∧ t.keyPressed k.toNat = true ∧
        (∀ j, j < 16 → j ≠ k.toNat → t.keyPressed j = s.keyPressed j) ∧ OnlyChanges [.key] s t) ∧
      (∃ t, transact s (.clearKey k) = (t, .ok) ∧ t.keyPressed k.toNat = false ∧
        (∀ j, j < 16 → j ≠ k.toNat → t.keyPressed j = s.keyPressed j) ∧ OnlyChanges [.key] s t)) ∧
    (k < 0 ∨ 15 < k →
      transact s (.setKey k) = (s, .hostError .invalidKeyIndex) ∧
      transact s (.clearKey k) = (s, .hostError .invalidKeyIndex))

/-- R236. -/
def Obligations.ReadoutGivesEveryCell : Prop :=
  ∀ s : State, ∃ words : Vector (BitVec 32) 2048, transact s .readout = (s, .frame words) ∧
    ∀ (idx : Nat) (h : idx < 2048), words[idx] = if s.fb.cell idx then 0xFFFFFFFF else 0x00000000

/-- Construction and reset give every element its value of R41 and R270, from any state. Two clauses are the model's: that
reset keeps the parameters (`t.cfg = s.cfg`, log entry 12), and that a read at or above 4096 gives 0 (log entry 8). -/
def Obligations.ResetGivesTheBaseline : Prop :=
  ∀ (s t : State), t = (transact s .reset).1 ∨ t = State.resetWith s.cfg →
    (∀ r, t.readV r = 0) ∧
    (∀ a, t.loadByte a = if 0x50 ≤ a ∧ a < 0xA0 then s.cfg.font[a - 0x50]?.getD 0 else 0) ∧
    t.i = 0 ∧ t.pc = 0x200 ∧ t.stack = [] ∧ t.dt = 0 ∧ t.st = 0 ∧ (∀ idx, idx < 2048 → t.fb.cell idx = false) ∧
    (∀ k, k < 16 → t.keyPressed k = false) ∧ t.fault = none ∧ t.cfg = s.cfg

/-- R240 (the spec's own decision D26): a latched fault does not keep the host from loading, setting keys or reading out, and only `reset` clears it. -/
def Obligations.FaultedMachineServesTheHost : Prop :=
  ∀ (s : State) (r : FaultRecord), s.fault = some r →
    transact s .cycle = (s, .faulted r) ∧ (transact s .reset).1.fault = none ∧
    ∀ tr : Transaction, tr ≠ .cycle → tr ≠ .reset →
      (transact s tr).1 = { (transact { s with fault := none } tr).1 with fault := some r } ∧
      (transact s tr).2 = (transact { s with fault := none } tr).2

/-! ### Invariants -/

/-- The reset state meets the invariant, for every admissible choice of the parameters. -/
def Obligations.ResetMeetsTheInvariant : Prop :=
  State.reset.Inv ∧ ∀ c : Config, c.wf = true → (State.resetWith c).Inv

/-- Every step keeps the invariant: memory canonical, PC at most 4350 (R26), return addresses at most 4096, the stack
within STACK_CAP (R28), and a latched record of the shape of R250 about the instruction at PC. -/
def Obligations.StepKeepsTheInvariant : Prop :=
  ∀ s t : State, s.Inv → step s = .next t → t.Inv

/-- So does every run of host transactions of any kind. -/
def Obligations.SessionsKeepTheInvariant : Prop :=
  ∀ (s : State) (ts : List Transaction), s.Inv → (session s ts).1.Inv

/-! ### Whole-machine rules -/

/-- An operation that raises no fault changes only the elements its rule names: the framebuffer only by 00E0 and Dxyn, I
only by Annn, Fx1E and Fx29, the stack only by 2nnn and 00EE, memory only by Fx33 and Fx55, the keys and the parameters
by none. -/
def Obligations.OperationsWriteOnlyTheirElements : Prop :=
  ∀ (i : Instr) (s t : State), s.fault = none → exec i s = .next t → t.fault = none → OnlyChanges i.writes s t

/-- R23, the column of written registers: an operation changes no other register, whether or not it faults. -/
def Obligations.OperationsWriteOnlyTheirRegisters : Prop :=
  ∀ (i : Instr) (s t : State) (r : Nibble), exec i s = .next t → i.writesReg r = false → t.readV r = s.readV r

/-- R23, the column of read registers: a register that an operation neither reads nor writes has no influence on it. -/
def Obligations.UnreadRegistersHaveNoInfluence : Prop :=
  ∀ (i : Instr) (s t : State) (r : Nibble) (b : Byte), i.readsReg r = false → i.writesReg r = false →
    exec i s = .next t → exec i (s.writeV r b) = .next (t.writeV r b)

/-- R234: the `cycle` transaction is one step, and returns Ok or the record of the fault the cycle raised. -/
def Obligations.CycleTransactionReportsTheFault : Prop :=
  ∀ s : State, s.fault = none →
    ∃ t, step s = .next t ∧ (t.fault = none → transact s .cycle = (t, .ok)) ∧
      ∀ r, t.fault = some r → transact s .cycle = (t, .faulted r)

/-- The result column of R241: the results each transaction can return, and a host error leaves the state as it is. -/
def Obligations.TransactionsReturnTheirResults : Prop :=
  ∀ s : State,
    ((transact s .cycle).2 = .ok ∨ ∃ r, (transact s .cycle).2 = .faulted r ∧ (transact s .cycle).1.fault = some r) ∧
    (transact s .reset).2 = .nothing ∧
    (∀ bytes, (transact s (.loadProgram bytes)).2 = .ok ∨
      transact s (.loadProgram bytes) = (s, .hostError .programTooLarge)) ∧
    (∀ k, (transact s (.setKey k)).2 = .ok ∨ transact s (.setKey k) = (s, .hostError .invalidKeyIndex)) ∧
    (∀ k, (transact s (.clearKey k)).2 = .ok ∨ transact s (.clearKey k) = (s, .hostError .invalidKeyIndex)) ∧
    ∃ words, (transact s .readout).2 = .frame words
end

