-- ==== Sys2Proof/Laws/Decode.lean ====
section
/-! SUPPORT. The fields of an encoded word, and the word rebuilt from its fields (R71, R72). -/

namespace Sys2Proof

variable (f x y n : Nibble) (kk : Byte) (nnn : Addr12) (w : Word)

/-! ### Fields of each format -/

theorem opFamily_encodeAddr : opFamily (encodeAddr f nnn) = f := by
  apply BitVec.eq_of_getLsbD_eq; intro k hk
  simp only [opFamily, encodeAddr, BitVec.getLsbD_extractLsb', BitVec.getLsbD_append]
  simp [hk]

theorem opNNN_encodeAddr : opNNN (encodeAddr f nnn) = nnn := by
  apply BitVec.eq_of_getLsbD_eq; intro k hk
  simp only [opNNN, encodeAddr, BitVec.getLsbD_extractLsb', BitVec.getLsbD_append]
  simp [hk]

theorem opFamily_encodeRegByte : opFamily (encodeRegByte f x kk) = f := by
  apply BitVec.eq_of_getLsbD_eq; intro k hk
  simp only [opFamily, encodeRegByte, BitVec.getLsbD_extractLsb', BitVec.getLsbD_append]
  interval_cases k <;> simp

theorem opX_encodeRegByte : opX (encodeRegByte f x kk) = x := by
  apply BitVec.eq_of_getLsbD_eq; intro k hk
  simp only [opX, encodeRegByte, BitVec.getLsbD_extractLsb', BitVec.getLsbD_append]
  interval_cases k <;> simp

theorem opKK_encodeRegByte : opKK (encodeRegByte f x kk) = kk := by
  apply BitVec.eq_of_getLsbD_eq; intro k hk
  simp only [opKK, encodeRegByte, BitVec.getLsbD_extractLsb', BitVec.getLsbD_append]
  simp [hk]

theorem opFamily_encodeRegReg : opFamily (encodeRegReg f x y n) = f := by
  apply BitVec.eq_of_getLsbD_eq; intro k hk
  simp only [opFamily, encodeRegReg, BitVec.getLsbD_extractLsb', BitVec.getLsbD_append]
  interval_cases k <;> simp

theorem opX_encodeRegReg : opX (encodeRegReg f x y n) = x := by
  apply BitVec.eq_of_getLsbD_eq; intro k hk
  simp only [opX, encodeRegReg, BitVec.getLsbD_extractLsb', BitVec.getLsbD_append]
  interval_cases k <;> simp

theorem opY_encodeRegReg : opY (encodeRegReg f x y n) = y := by
  apply BitVec.eq_of_getLsbD_eq; intro k hk
  simp only [opY, encodeRegReg, BitVec.getLsbD_extractLsb', BitVec.getLsbD_append]
  interval_cases k <;> simp

theorem opN_encodeRegReg : opN (encodeRegReg f x y n) = n := by
  apply BitVec.eq_of_getLsbD_eq; intro k hk
  simp only [opN, encodeRegReg, BitVec.getLsbD_extractLsb', BitVec.getLsbD_append]
  simp [hk]

/-! ### Masks of R76 -/

theorem encodeAddr_mask : encodeAddr f nnn &&& 0xF000 = encodeAddr f 0 := by
  apply BitVec.eq_of_getLsbD_eq; intro k hk
  simp only [encodeAddr, BitVec.getLsbD_and, BitVec.getLsbD_append]
  interval_cases k <;> simp

theorem encodeRegByte_mask_family : encodeRegByte f x kk &&& 0xF000 = encodeRegByte f 0 0 := by
  apply BitVec.eq_of_getLsbD_eq; intro k hk
  simp only [encodeRegByte, BitVec.getLsbD_and, BitVec.getLsbD_append]
  interval_cases k <;> simp

theorem encodeRegByte_mask_byte : encodeRegByte f x kk &&& 0xF0FF = encodeRegByte f 0 kk := by
  apply BitVec.eq_of_getLsbD_eq; intro k hk
  simp only [encodeRegByte, BitVec.getLsbD_and, BitVec.getLsbD_append]
  interval_cases k <;> simp

theorem encodeRegReg_mask_family : encodeRegReg f x y n &&& 0xF000 = encodeRegReg f 0 0 0 := by
  apply BitVec.eq_of_getLsbD_eq; intro k hk
  simp only [encodeRegReg, BitVec.getLsbD_and, BitVec.getLsbD_append]
  interval_cases k <;> simp

theorem encodeRegReg_mask_nibble : encodeRegReg f x y n &&& 0xF00F = encodeRegReg f 0 0 n := by
  apply BitVec.eq_of_getLsbD_eq; intro k hk
  simp only [encodeRegReg, BitVec.getLsbD_and, BitVec.getLsbD_append]
  interval_cases k <;> simp

/-! ### The word from its fields -/

theorem encodeAddr_fields : encodeAddr (opFamily w) (opNNN w) = w := by
  apply BitVec.eq_of_getLsbD_eq; intro k hk
  simp only [encodeAddr, opFamily, opNNN, BitVec.getLsbD_append, BitVec.getLsbD_extractLsb']
  interval_cases k <;> simp

theorem encodeRegByte_fields : encodeRegByte (opFamily w) (opX w) (opKK w) = w := by
  apply BitVec.eq_of_getLsbD_eq; intro k hk
  simp only [encodeRegByte, opFamily, opX, opKK, BitVec.getLsbD_append, BitVec.getLsbD_extractLsb']
  interval_cases k <;> simp

theorem encodeRegReg_fields : encodeRegReg (opFamily w) (opX w) (opY w) (opN w) = w := by
  apply BitVec.eq_of_getLsbD_eq; intro k hk
  simp only [encodeRegReg, opFamily, opX, opY, opN, BitVec.getLsbD_append, BitVec.getLsbD_extractLsb']
  interval_cases k <;> simp

theorem wordOfBytes_bytes : wordOfBytes (highByte w) (lowByte w) = w := by
  apply BitVec.eq_of_getLsbD_eq; intro k hk
  simp only [wordOfBytes, highByte, lowByte, BitVec.getLsbD_append, BitVec.getLsbD_extractLsb']
  interval_cases k <;> simp

theorem wordOfBytes_toNat (hi lo : Byte) : (wordOfBytes hi lo).toNat = hi.toNat * 256 + lo.toNat := by
  have hl : lo.toNat < 2 ^ 8 := lo.isLt
  rw [wordOfBytes, BitVec.toNat_append, Nat.shiftLeft_eq, ← Nat.shiftLeft_eq, ← Nat.shiftLeft_add_eq_or_of_lt hl,
    Nat.shiftLeft_eq]

end Sys2Proof
end

