-- ==== Sys2Proof/Laws/Memory.lean ====
section
/-! SUPPORT. The laws of memory: reading after writing, and the canonical form. -/

namespace Sys2Proof.Machine

variable {bg : Nat → Byte}

theorem Memory.read_erase (m : Memory) (a b : Nat) :
    (m.erase a).read bg b = if a = b then bg b else m.read bg b := by
  induction m with
  | nil => simp [Memory.erase, Memory.read]
  | cons c m ih =>
    obtain ⟨k, v⟩ := c
    simp only [Memory.erase, List.filter_cons] at ih ⊢
    by_cases hk : k = a
    · subst hk
      simp only [bne_self_eq_false, Bool.false_eq_true, if_false, ih, Memory.read]
      split <;> simp_all
    · simp only [bne_iff_ne, ne_eq, hk, not_false_eq_true, if_true, Memory.read, ih]
      split
      · next hb => simp [← hb, Ne.symm hk]
      · rfl

theorem Memory.not_mem_erase (m : Memory) (a : Nat) : ∀ c ∈ m.erase a, c.1 ≠ a := by
  intro c hc
  simpa [Memory.erase] using (List.mem_filter.mp hc).2

theorem Memory.read_insert (m : Memory) (a b : Nat) (v : Byte) (h : ∀ c ∈ m, c.1 ≠ a) :
    (Memory.insert a v m).read bg b = if a = b then v else m.read bg b := by
  induction m with
  | nil => simp [Memory.insert, Memory.read]
  | cons c m ih =>
    obtain ⟨k, w⟩ := c
    have hk : k ≠ a := h (k, w) (by simp)
    have ih := ih fun c hc => h c (by simp [hc])
    simp only [Memory.insert]
    split
    · simp [Memory.read]
    · simp only [Memory.read, ih]
      split
      · next hb => simp [← hb, Ne.symm hk]
      · rfl

/-- A read after a write gives the byte written, and every other byte is as before. It holds of every list of entries,
canonical or not. -/
theorem Memory.read_write (m : Memory) (a b : Nat) (v : Byte) :
    (m.write bg a v).read bg b = if a = b then v else m.read bg b := by
  unfold Memory.write
  split
  · next hv =>
    rw [Memory.read_erase]
    split
    · next hab => rw [hv, hab]
    · rfl
  · rw [Memory.read_insert _ _ _ _ (Memory.not_mem_erase m a), Memory.read_erase]
    split <;> rfl

theorem Memory.erase_wf {m : Memory} (h : m.wf bg) (a : Nat) : (m.erase a).wf bg :=
  ⟨h.1.filter _, fun c hc => h.2 c (List.mem_filter.mp hc).1⟩

theorem Memory.mem_insert {a : Nat} {v : Byte} {m : Memory} {c : Host.Cell} (h : c ∈ Memory.insert a v m) :
    c = (a, v) ∨ c ∈ m := by
  induction m with
  | nil => simpa [Memory.insert] using h
  | cons d m ih =>
    obtain ⟨k, w⟩ := d
    simp only [Memory.insert] at h
    split at h
    · simpa using h
    · rcases List.mem_cons.mp h with h | h
      · exact .inr (by simp [h])
      · exact (ih h).imp_right (List.mem_cons_of_mem _)

theorem Memory.insert_rising {m : Memory} (a : Nat) (v : Byte) (hm : m.Pairwise fun c d => c.1 < d.1)
    (ha : ∀ c ∈ m, c.1 ≠ a) : (Memory.insert a v m).Pairwise fun c d => c.1 < d.1 := by
  induction m with
  | nil => simp [Memory.insert]
  | cons c m ih =>
    obtain ⟨k, w⟩ := c
    have hk : k ≠ a := ha (k, w) (by simp)
    obtain ⟨hlt, hm⟩ := List.pairwise_cons.mp hm
    simp only [Memory.insert]
    split
    · next hak =>
      refine List.pairwise_cons.mpr ⟨fun d hd => ?_, List.pairwise_cons.mpr ⟨hlt, hm⟩⟩
      rcases List.mem_cons.mp hd with rfl | hd
      · exact hak
      · exact Nat.lt_trans hak (hlt d hd)
    · next hak =>
      refine List.pairwise_cons.mpr ⟨fun d hd => ?_, ih hm fun c hc => ha c (List.mem_cons_of_mem _ hc)⟩
      rcases Memory.mem_insert hd with rfl | hd
      · exact Nat.lt_of_le_of_ne (Nat.le_of_not_lt hak) hk
      · exact hlt d hd

/-- A write inside memory keeps the canonical form. -/
theorem Memory.write_wf {m : Memory} (h : m.wf bg) {a : Nat} (ha : a < memSize) (v : Byte) :
    (m.write bg a v).wf bg := by
  unfold Memory.write
  split
  · exact Memory.erase_wf h a
  · next hv =>
    have he := Memory.erase_wf h a
    refine ⟨Memory.insert_rising a v he.1 (Memory.not_mem_erase m a), fun c hc => ?_⟩
    rcases Memory.mem_insert hc with rfl | hc
    · exact ⟨ha, hv⟩
    · exact he.2 c hc

/-- Canonical memories that read the same are the same list. -/
theorem Memory.ext_of_wf {m₁ m₂ : Memory} (h₁ : m₁.wf bg) (h₂ : m₂.wf bg)
    (h : ∀ a, m₁.read bg a = m₂.read bg a) : m₁ = m₂ := by
  have unlisted : ∀ {m : Memory} {a : Nat}, (∀ c ∈ m, c.1 ≠ a) → m.read bg a = bg a := by
    intro m a hm
    induction m with
    | nil => rfl
    | cons c m ih =>
      obtain ⟨k, v⟩ := c
      simp only [Memory.read, if_neg (hm (k, v) (by simp))]
      exact ih fun c hc => hm c (List.mem_cons_of_mem _ hc)
  induction m₁ generalizing m₂ with
  | nil =>
    cases m₂ with
    | nil => rfl
    | cons c m₂ =>
      obtain ⟨k, v⟩ := c
      have := h k
      simp only [Memory.read, if_true] at this
      exact absurd this.symm (h₂.2 (k, v) (by simp)).2
  | cons c₁ m₁ ih =>
    obtain ⟨k₁, v₁⟩ := c₁
    obtain ⟨lt₁, p₁⟩ := List.pairwise_cons.mp h₁.1
    cases m₂ with
    | nil =>
      have := h k₁
      simp only [Memory.read, if_true] at this
      exact absurd this (h₁.2 (k₁, v₁) (by simp)).2
    | cons c₂ m₂ =>
      obtain ⟨k₂, v₂⟩ := c₂
      obtain ⟨lt₂, p₂⟩ := List.pairwise_cons.mp h₂.1
      have hk : k₁ = k₂ := by
        rcases Nat.lt_trichotomy k₁ k₂ with hlt | heq | hlt
        · have := h k₁
          rw [unlisted (m := (k₂, v₂) :: m₂)] at this
          · simp only [Memory.read, if_true] at this
            exact absurd this (h₁.2 (k₁, v₁) (by simp)).2
          · intro c hc
            rcases List.mem_cons.mp hc with rfl | hc
            · exact Nat.ne_of_gt hlt
            · exact Nat.ne_of_gt (Nat.lt_trans hlt (lt₂ c hc))
        · exact heq
        · have := h k₂
          rw [unlisted (m := (k₁, v₁) :: m₁)] at this
          · simp only [Memory.read, if_true] at this
            exact absurd this.symm (h₂.2 (k₂, v₂) (by simp)).2
          · intro c hc
            rcases List.mem_cons.mp hc with rfl | hc
            · exact Nat.ne_of_gt hlt
            · exact Nat.ne_of_gt (Nat.lt_trans hlt (lt₁ c hc))
      subst hk
      have hv : v₁ = v₂ := by simpa [Memory.read] using h k₁
      subst hv
      congr 1
      refine ih ⟨p₁, fun c hc => h₁.2 c (List.mem_cons_of_mem _ hc)⟩
        ⟨p₂, fun c hc => h₂.2 c (List.mem_cons_of_mem _ hc)⟩ fun a => ?_
      by_cases ha : k₁ = a
      · subst ha
        rw [unlisted fun c hc => Nat.ne_of_gt (lt₁ c hc), unlisted fun c hc => Nat.ne_of_gt (lt₂ c hc)]
      · simpa [Memory.read, ha] using h a

/-- The canonical form depends on the memory and the parameters alone. -/
theorem State.memWF_congr {s t : State} (hm : t.mem = s.mem) (hc : t.cfg = s.cfg) : t.MemWF ↔ s.MemWF := by
  unfold State.MemWF State.background
  rw [hm, hc]

/-- The memory after reset is canonical. -/
theorem State.resetWith_memWF (c : Config) : (State.resetWith c).MemWF :=
  ⟨List.Pairwise.nil, fun _ h => nomatch h⟩

end Sys2Proof.Machine
end

