-- ==== Sys2Proof/Laws/State.lean ====
section
/-! SUPPORT. The small lemmas of State: what each named operation leaves in each field, and what each accessor reads
after it. -/

namespace Sys2Proof.Machine

variable (s : State)


/-! ### writeV -/

@[simp] theorem State.writeV_v (r : Nibble) (b : Byte) : (s.writeV r b).v = s.v.set r.toNat b r.isLt := rfl
@[simp] theorem State.writeV_mem (r : Nibble) (b : Byte) : (s.writeV r b).mem = s.mem := rfl
@[simp] theorem State.writeV_i (r : Nibble) (b : Byte) : (s.writeV r b).i = s.i := rfl
@[simp] theorem State.writeV_pc (r : Nibble) (b : Byte) : (s.writeV r b).pc = s.pc := rfl
@[simp] theorem State.writeV_stack (r : Nibble) (b : Byte) : (s.writeV r b).stack = s.stack := rfl
@[simp] theorem State.writeV_dt (r : Nibble) (b : Byte) : (s.writeV r b).dt = s.dt := rfl
@[simp] theorem State.writeV_st (r : Nibble) (b : Byte) : (s.writeV r b).st = s.st := rfl
@[simp] theorem State.writeV_fb (r : Nibble) (b : Byte) : (s.writeV r b).fb = s.fb := rfl
@[simp] theorem State.writeV_key (r : Nibble) (b : Byte) : (s.writeV r b).key = s.key := rfl
@[simp] theorem State.writeV_fault (r : Nibble) (b : Byte) : (s.writeV r b).fault = s.fault := rfl
@[simp] theorem State.writeV_cfg (r : Nibble) (b : Byte) : (s.writeV r b).cfg = s.cfg := rfl
@[simp] theorem State.writeV_rndCount (r : Nibble) (b : Byte) : (s.writeV r b).rndCount = s.rndCount := rfl

/-! ### advance -/

@[simp] theorem State.advance_v : s.advance.v = s.v := rfl
@[simp] theorem State.advance_mem : s.advance.mem = s.mem := rfl
@[simp] theorem State.advance_i : s.advance.i = s.i := rfl
@[simp] theorem State.advance_pc : s.advance.pc = s.pc + 2 := rfl
@[simp] theorem State.advance_stack : s.advance.stack = s.stack := rfl
@[simp] theorem State.advance_dt : s.advance.dt = s.dt := rfl
@[simp] theorem State.advance_st : s.advance.st = s.st := rfl
@[simp] theorem State.advance_fb : s.advance.fb = s.fb := rfl
@[simp] theorem State.advance_key : s.advance.key = s.key := rfl
@[simp] theorem State.advance_fault : s.advance.fault = s.fault := rfl
@[simp] theorem State.advance_cfg : s.advance.cfg = s.cfg := rfl
@[simp] theorem State.advance_rndCount : s.advance.rndCount = s.rndCount := rfl

/-! ### unadvance -/

@[simp] theorem State.unadvance_v : s.unadvance.v = s.v := rfl
@[simp] theorem State.unadvance_mem : s.unadvance.mem = s.mem := rfl
@[simp] theorem State.unadvance_i : s.unadvance.i = s.i := rfl
@[simp] theorem State.unadvance_pc : s.unadvance.pc = s.pc - 2 := rfl
@[simp] theorem State.unadvance_stack : s.unadvance.stack = s.stack := rfl
@[simp] theorem State.unadvance_dt : s.unadvance.dt = s.dt := rfl
@[simp] theorem State.unadvance_st : s.unadvance.st = s.st := rfl
@[simp] theorem State.unadvance_fb : s.unadvance.fb = s.fb := rfl
@[simp] theorem State.unadvance_key : s.unadvance.key = s.key := rfl
@[simp] theorem State.unadvance_fault : s.unadvance.fault = s.fault := rfl
@[simp] theorem State.unadvance_cfg : s.unadvance.cfg = s.cfg := rfl
@[simp] theorem State.unadvance_rndCount : s.unadvance.rndCount = s.rndCount := rfl

/-! ### push -/

@[simp] theorem State.push_v (w : Word) : (s.push w).v = s.v := rfl
@[simp] theorem State.push_mem (w : Word) : (s.push w).mem = s.mem := rfl
@[simp] theorem State.push_i (w : Word) : (s.push w).i = s.i := rfl
@[simp] theorem State.push_pc (w : Word) : (s.push w).pc = s.pc := rfl
@[simp] theorem State.push_stack (w : Word) : (s.push w).stack = w :: s.stack := rfl
@[simp] theorem State.push_dt (w : Word) : (s.push w).dt = s.dt := rfl
@[simp] theorem State.push_st (w : Word) : (s.push w).st = s.st := rfl
@[simp] theorem State.push_fb (w : Word) : (s.push w).fb = s.fb := rfl
@[simp] theorem State.push_key (w : Word) : (s.push w).key = s.key := rfl
@[simp] theorem State.push_fault (w : Word) : (s.push w).fault = s.fault := rfl
@[simp] theorem State.push_cfg (w : Word) : (s.push w).cfg = s.cfg := rfl
@[simp] theorem State.push_rndCount (w : Word) : (s.push w).rndCount = s.rndCount := rfl

/-! ### tick -/

@[simp] theorem State.tick_v : s.tick.v = s.v := rfl
@[simp] theorem State.tick_mem : s.tick.mem = s.mem := rfl
@[simp] theorem State.tick_i : s.tick.i = s.i := rfl
@[simp] theorem State.tick_pc : s.tick.pc = s.pc := rfl
@[simp] theorem State.tick_stack : s.tick.stack = s.stack := rfl
@[simp] theorem State.tick_dt : s.tick.dt = tickTimer s.dt := rfl
@[simp] theorem State.tick_st : s.tick.st = tickTimer s.st := rfl
@[simp] theorem State.tick_fb : s.tick.fb = s.fb := rfl
@[simp] theorem State.tick_key : s.tick.key = s.key := rfl
@[simp] theorem State.tick_fault : s.tick.fault = s.fault := rfl
@[simp] theorem State.tick_cfg : s.tick.cfg = s.cfg := rfl
@[simp] theorem State.tick_rndCount : s.tick.rndCount = s.rndCount := rfl

/-! ### consumeRandom -/

@[simp] theorem State.consumeRandom_v : s.consumeRandom.v = s.v := rfl
@[simp] theorem State.consumeRandom_mem : s.consumeRandom.mem = s.mem := rfl
@[simp] theorem State.consumeRandom_i : s.consumeRandom.i = s.i := rfl
@[simp] theorem State.consumeRandom_pc : s.consumeRandom.pc = s.pc := rfl
@[simp] theorem State.consumeRandom_stack : s.consumeRandom.stack = s.stack := rfl
@[simp] theorem State.consumeRandom_dt : s.consumeRandom.dt = s.dt := rfl
@[simp] theorem State.consumeRandom_st : s.consumeRandom.st = s.st := rfl
@[simp] theorem State.consumeRandom_fb : s.consumeRandom.fb = s.fb := rfl
@[simp] theorem State.consumeRandom_key : s.consumeRandom.key = s.key := rfl
@[simp] theorem State.consumeRandom_fault : s.consumeRandom.fault = s.fault := rfl
@[simp] theorem State.consumeRandom_cfg : s.consumeRandom.cfg = s.cfg := rfl
@[simp] theorem State.consumeRandom_rndCount : s.consumeRandom.rndCount = s.rndCount + 1 := rfl

/-! ### latch -/

@[simp] theorem State.latch_v (kind : FaultKind) (opcode : Option Word) (info : FaultInfo) : (s.latch kind opcode info).v = s.v := rfl
@[simp] theorem State.latch_mem (kind : FaultKind) (opcode : Option Word) (info : FaultInfo) : (s.latch kind opcode info).mem = s.mem := rfl
@[simp] theorem State.latch_i (kind : FaultKind) (opcode : Option Word) (info : FaultInfo) : (s.latch kind opcode info).i = s.i := rfl
@[simp] theorem State.latch_pc (kind : FaultKind) (opcode : Option Word) (info : FaultInfo) : (s.latch kind opcode info).pc = s.pc := rfl
@[simp] theorem State.latch_stack (kind : FaultKind) (opcode : Option Word) (info : FaultInfo) : (s.latch kind opcode info).stack = s.stack := rfl
@[simp] theorem State.latch_dt (kind : FaultKind) (opcode : Option Word) (info : FaultInfo) : (s.latch kind opcode info).dt = s.dt := rfl
@[simp] theorem State.latch_st (kind : FaultKind) (opcode : Option Word) (info : FaultInfo) : (s.latch kind opcode info).st = s.st := rfl
@[simp] theorem State.latch_fb (kind : FaultKind) (opcode : Option Word) (info : FaultInfo) : (s.latch kind opcode info).fb = s.fb := rfl
@[simp] theorem State.latch_key (kind : FaultKind) (opcode : Option Word) (info : FaultInfo) : (s.latch kind opcode info).key = s.key := rfl
@[simp] theorem State.latch_fault (kind : FaultKind) (opcode : Option Word) (info : FaultInfo) : (s.latch kind opcode info).fault = some { kind := kind, pc := s.pc, opcode := opcode, info := info } := rfl
@[simp] theorem State.latch_cfg (kind : FaultKind) (opcode : Option Word) (info : FaultInfo) : (s.latch kind opcode info).cfg = s.cfg := rfl
@[simp] theorem State.latch_rndCount (kind : FaultKind) (opcode : Option Word) (info : FaultInfo) : (s.latch kind opcode info).rndCount = s.rndCount := rfl

/-! ### skipIf -/

@[simp] theorem State.skipIf_v (taken : Bool) : (s.skipIf taken).v = s.v := by cases taken <;> rfl
@[simp] theorem State.skipIf_mem (taken : Bool) : (s.skipIf taken).mem = s.mem := by cases taken <;> rfl
@[simp] theorem State.skipIf_i (taken : Bool) : (s.skipIf taken).i = s.i := by cases taken <;> rfl
@[simp] theorem State.skipIf_pc (taken : Bool) : (s.skipIf taken).pc = if taken then s.pc + 2 else s.pc := by cases taken <;> rfl
@[simp] theorem State.skipIf_stack (taken : Bool) : (s.skipIf taken).stack = s.stack := by cases taken <;> rfl
@[simp] theorem State.skipIf_dt (taken : Bool) : (s.skipIf taken).dt = s.dt := by cases taken <;> rfl
@[simp] theorem State.skipIf_st (taken : Bool) : (s.skipIf taken).st = s.st := by cases taken <;> rfl
@[simp] theorem State.skipIf_fb (taken : Bool) : (s.skipIf taken).fb = s.fb := by cases taken <;> rfl
@[simp] theorem State.skipIf_key (taken : Bool) : (s.skipIf taken).key = s.key := by cases taken <;> rfl
@[simp] theorem State.skipIf_fault (taken : Bool) : (s.skipIf taken).fault = s.fault := by cases taken <;> rfl
@[simp] theorem State.skipIf_cfg (taken : Bool) : (s.skipIf taken).cfg = s.cfg := by cases taken <;> rfl
@[simp] theorem State.skipIf_rndCount (taken : Bool) : (s.skipIf taken).rndCount = s.rndCount := by cases taken <;> rfl

/-! ### storeByte -/

@[simp] theorem State.storeByte_v (a : Nat) (b : Byte) : (s.storeByte a b).v = s.v := by unfold State.storeByte; split <;> rfl
@[simp] theorem State.storeByte_i (a : Nat) (b : Byte) : (s.storeByte a b).i = s.i := by unfold State.storeByte; split <;> rfl
@[simp] theorem State.storeByte_pc (a : Nat) (b : Byte) : (s.storeByte a b).pc = s.pc := by unfold State.storeByte; split <;> rfl
@[simp] theorem State.storeByte_stack (a : Nat) (b : Byte) : (s.storeByte a b).stack = s.stack := by unfold State.storeByte; split <;> rfl
@[simp] theorem State.storeByte_dt (a : Nat) (b : Byte) : (s.storeByte a b).dt = s.dt := by unfold State.storeByte; split <;> rfl
@[simp] theorem State.storeByte_st (a : Nat) (b : Byte) : (s.storeByte a b).st = s.st := by unfold State.storeByte; split <;> rfl
@[simp] theorem State.storeByte_fb (a : Nat) (b : Byte) : (s.storeByte a b).fb = s.fb := by unfold State.storeByte; split <;> rfl
@[simp] theorem State.storeByte_key (a : Nat) (b : Byte) : (s.storeByte a b).key = s.key := by unfold State.storeByte; split <;> rfl
@[simp] theorem State.storeByte_fault (a : Nat) (b : Byte) : (s.storeByte a b).fault = s.fault := by unfold State.storeByte; split <;> rfl
@[simp] theorem State.storeByte_cfg (a : Nat) (b : Byte) : (s.storeByte a b).cfg = s.cfg := by unfold State.storeByte; split <;> rfl
@[simp] theorem State.storeByte_rndCount (a : Nat) (b : Byte) : (s.storeByte a b).rndCount = s.rndCount := by unfold State.storeByte; split <;> rfl

/-! ### storeBytes -/

@[simp] theorem State.storeBytes_v (a : Nat) (bs : List Byte) : (s.storeBytes a bs).v = s.v := by
  induction bs generalizing s a with
  | nil => rfl
  | cons b bs ih => simp [State.storeBytes, ih]
@[simp] theorem State.storeBytes_i (a : Nat) (bs : List Byte) : (s.storeBytes a bs).i = s.i := by
  induction bs generalizing s a with
  | nil => rfl
  | cons b bs ih => simp [State.storeBytes, ih]
@[simp] theorem State.storeBytes_pc (a : Nat) (bs : List Byte) : (s.storeBytes a bs).pc = s.pc := by
  induction bs generalizing s a with
  | nil => rfl
  | cons b bs ih => simp [State.storeBytes, ih]
@[simp] theorem State.storeBytes_stack (a : Nat) (bs : List Byte) : (s.storeBytes a bs).stack = s.stack := by
  induction bs generalizing s a with
  | nil => rfl
  | cons b bs ih => simp [State.storeBytes, ih]
@[simp] theorem State.storeBytes_dt (a : Nat) (bs : List Byte) : (s.storeBytes a bs).dt = s.dt := by
  induction bs generalizing s a with
  | nil => rfl
  | cons b bs ih => simp [State.storeBytes, ih]
@[simp] theorem State.storeBytes_st (a : Nat) (bs : List Byte) : (s.storeBytes a bs).st = s.st := by
  induction bs generalizing s a with
  | nil => rfl
  | cons b bs ih => simp [State.storeBytes, ih]
@[simp] theorem State.storeBytes_fb (a : Nat) (bs : List Byte) : (s.storeBytes a bs).fb = s.fb := by
  induction bs generalizing s a with
  | nil => rfl
  | cons b bs ih => simp [State.storeBytes, ih]
@[simp] theorem State.storeBytes_key (a : Nat) (bs : List Byte) : (s.storeBytes a bs).key = s.key := by
  induction bs generalizing s a with
  | nil => rfl
  | cons b bs ih => simp [State.storeBytes, ih]
@[simp] theorem State.storeBytes_fault (a : Nat) (bs : List Byte) : (s.storeBytes a bs).fault = s.fault := by
  induction bs generalizing s a with
  | nil => rfl
  | cons b bs ih => simp [State.storeBytes, ih]
@[simp] theorem State.storeBytes_cfg (a : Nat) (bs : List Byte) : (s.storeBytes a bs).cfg = s.cfg := by
  induction bs generalizing s a with
  | nil => rfl
  | cons b bs ih => simp [State.storeBytes, ih]
@[simp] theorem State.storeBytes_rndCount (a : Nat) (bs : List Byte) : (s.storeBytes a bs).rndCount = s.rndCount := by
  induction bs generalizing s a with
  | nil => rfl
  | cons b bs ih => simp [State.storeBytes, ih]

/-! ### loadRegs -/

@[simp] theorem State.loadRegs_mem (a : Nat) (bs : List Byte) : (s.loadRegs a bs).mem = s.mem := by
  induction bs generalizing s a with
  | nil => rfl
  | cons b bs ih => simp [State.loadRegs, ih]
@[simp] theorem State.loadRegs_i (a : Nat) (bs : List Byte) : (s.loadRegs a bs).i = s.i := by
  induction bs generalizing s a with
  | nil => rfl
  | cons b bs ih => simp [State.loadRegs, ih]
@[simp] theorem State.loadRegs_pc (a : Nat) (bs : List Byte) : (s.loadRegs a bs).pc = s.pc := by
  induction bs generalizing s a with
  | nil => rfl
  | cons b bs ih => simp [State.loadRegs, ih]
@[simp] theorem State.loadRegs_stack (a : Nat) (bs : List Byte) : (s.loadRegs a bs).stack = s.stack := by
  induction bs generalizing s a with
  | nil => rfl
  | cons b bs ih => simp [State.loadRegs, ih]
@[simp] theorem State.loadRegs_dt (a : Nat) (bs : List Byte) : (s.loadRegs a bs).dt = s.dt := by
  induction bs generalizing s a with
  | nil => rfl
  | cons b bs ih => simp [State.loadRegs, ih]
@[simp] theorem State.loadRegs_st (a : Nat) (bs : List Byte) : (s.loadRegs a bs).st = s.st := by
  induction bs generalizing s a with
  | nil => rfl
  | cons b bs ih => simp [State.loadRegs, ih]
@[simp] theorem State.loadRegs_fb (a : Nat) (bs : List Byte) : (s.loadRegs a bs).fb = s.fb := by
  induction bs generalizing s a with
  | nil => rfl
  | cons b bs ih => simp [State.loadRegs, ih]
@[simp] theorem State.loadRegs_key (a : Nat) (bs : List Byte) : (s.loadRegs a bs).key = s.key := by
  induction bs generalizing s a with
  | nil => rfl
  | cons b bs ih => simp [State.loadRegs, ih]
@[simp] theorem State.loadRegs_fault (a : Nat) (bs : List Byte) : (s.loadRegs a bs).fault = s.fault := by
  induction bs generalizing s a with
  | nil => rfl
  | cons b bs ih => simp [State.loadRegs, ih]
@[simp] theorem State.loadRegs_cfg (a : Nat) (bs : List Byte) : (s.loadRegs a bs).cfg = s.cfg := by
  induction bs generalizing s a with
  | nil => rfl
  | cons b bs ih => simp [State.loadRegs, ih]
@[simp] theorem State.loadRegs_rndCount (a : Nat) (bs : List Byte) : (s.loadRegs a bs).rndCount = s.rndCount := by
  induction bs generalizing s a with
  | nil => rfl
  | cons b bs ih => simp [State.loadRegs, ih]

/-! ### flagThenResult -/

@[simp] theorem State.flagThenResult_mem (x a b : Nibble) (flag result : Byte → Byte → Byte) :
    (s.flagThenResult x a b flag result).mem = s.mem := by
  unfold State.flagThenResult
  cases s.cfg.aluFlagOrder <;> rfl
@[simp] theorem State.flagThenResult_i (x a b : Nibble) (flag result : Byte → Byte → Byte) :
    (s.flagThenResult x a b flag result).i = s.i := by
  unfold State.flagThenResult
  cases s.cfg.aluFlagOrder <;> rfl
@[simp] theorem State.flagThenResult_pc (x a b : Nibble) (flag result : Byte → Byte → Byte) :
    (s.flagThenResult x a b flag result).pc = s.pc := by
  unfold State.flagThenResult
  cases s.cfg.aluFlagOrder <;> rfl
@[simp] theorem State.flagThenResult_stack (x a b : Nibble) (flag result : Byte → Byte → Byte) :
    (s.flagThenResult x a b flag result).stack = s.stack := by
  unfold State.flagThenResult
  cases s.cfg.aluFlagOrder <;> rfl
@[simp] theorem State.flagThenResult_dt (x a b : Nibble) (flag result : Byte → Byte → Byte) :
    (s.flagThenResult x a b flag result).dt = s.dt := by
  unfold State.flagThenResult
  cases s.cfg.aluFlagOrder <;> rfl
@[simp] theorem State.flagThenResult_st (x a b : Nibble) (flag result : Byte → Byte → Byte) :
    (s.flagThenResult x a b flag result).st = s.st := by
  unfold State.flagThenResult
  cases s.cfg.aluFlagOrder <;> rfl
@[simp] theorem State.flagThenResult_fb (x a b : Nibble) (flag result : Byte → Byte → Byte) :
    (s.flagThenResult x a b flag result).fb = s.fb := by
  unfold State.flagThenResult
  cases s.cfg.aluFlagOrder <;> rfl
@[simp] theorem State.flagThenResult_key (x a b : Nibble) (flag result : Byte → Byte → Byte) :
    (s.flagThenResult x a b flag result).key = s.key := by
  unfold State.flagThenResult
  cases s.cfg.aluFlagOrder <;> rfl
@[simp] theorem State.flagThenResult_fault (x a b : Nibble) (flag result : Byte → Byte → Byte) :
    (s.flagThenResult x a b flag result).fault = s.fault := by
  unfold State.flagThenResult
  cases s.cfg.aluFlagOrder <;> rfl
@[simp] theorem State.flagThenResult_cfg (x a b : Nibble) (flag result : Byte → Byte → Byte) :
    (s.flagThenResult x a b flag result).cfg = s.cfg := by
  unfold State.flagThenResult
  cases s.cfg.aluFlagOrder <;> rfl
@[simp] theorem State.flagThenResult_rndCount (x a b : Nibble) (flag result : Byte → Byte → Byte) :
    (s.flagThenResult x a b flag result).rndCount = s.rndCount := by
  unfold State.flagThenResult
  cases s.cfg.aluFlagOrder <;> rfl

/-! ### Accessors -/

theorem reg_toNat_lt (r : Nibble) : r.toNat < 16 := r.isLt

/-- A register reads the byte written to it, and every other register reads as before (R21). -/
theorem State.readV_writeV (r q : Nibble) (b : Byte) : (s.writeV r b).readV q = if r = q then b else s.readV q := by
  simp only [State.readV, State.writeV, Vector.getElem_set, BitVec.toNat_inj]

@[simp] theorem State.readV_writeV_same (r : Nibble) (b : Byte) : (s.writeV r b).readV r = b := by
  simp [State.readV_writeV]

theorem State.readV_writeV_of_ne {r q : Nibble} (h : r ≠ q) (b : Byte) : (s.writeV r b).readV q = s.readV q := by
  simp [State.readV_writeV, h]

/-- Two states with the same registers read the same. -/
theorem State.readV_congr {s t : State} (h : t.v = s.v) (r : Nibble) : t.readV r = s.readV r := by
  simp only [State.readV, h]

/-- Two states with the same memory and parameters read the same bytes. -/
theorem State.loadByte_congr {s t : State} (hm : t.mem = s.mem) (hc : t.cfg = s.cfg) (a : Nat) :
    t.loadByte a = s.loadByte a := by
  simp only [State.loadByte, State.background, hm, hc]

theorem State.keyPressed_congr {s t : State} (h : t.key = s.key) (k : Nat) : t.keyPressed k = s.keyPressed k := by
  simp only [State.keyPressed, h]

@[simp] theorem State.loadByte_writeV (r : Nibble) (b : Byte) (a : Nat) : (s.writeV r b).loadByte a = s.loadByte a := State.loadByte_congr (by simp) (by simp) a
@[simp] theorem State.keyPressed_writeV (r : Nibble) (b : Byte) (k : Nat) : (s.writeV r b).keyPressed k = s.keyPressed k := State.keyPressed_congr (by simp) k
@[simp] theorem State.readV_advance (q : Nibble) : s.advance.readV q = s.readV q := State.readV_congr (by simp) q
@[simp] theorem State.loadByte_advance (a : Nat) : s.advance.loadByte a = s.loadByte a := State.loadByte_congr (by simp) (by simp) a
@[simp] theorem State.keyPressed_advance (k : Nat) : s.advance.keyPressed k = s.keyPressed k := State.keyPressed_congr (by simp) k
@[simp] theorem State.readV_unadvance (q : Nibble) : s.unadvance.readV q = s.readV q := State.readV_congr (by simp) q
@[simp] theorem State.loadByte_unadvance (a : Nat) : s.unadvance.loadByte a = s.loadByte a := State.loadByte_congr (by simp) (by simp) a
@[simp] theorem State.keyPressed_unadvance (k : Nat) : s.unadvance.keyPressed k = s.keyPressed k := State.keyPressed_congr (by simp) k
@[simp] theorem State.readV_push (w : Word) (q : Nibble) : (s.push w).readV q = s.readV q := State.readV_congr (by simp) q
@[simp] theorem State.loadByte_push (w : Word) (a : Nat) : (s.push w).loadByte a = s.loadByte a := State.loadByte_congr (by simp) (by simp) a
@[simp] theorem State.keyPressed_push (w : Word) (k : Nat) : (s.push w).keyPressed k = s.keyPressed k := State.keyPressed_congr (by simp) k
@[simp] theorem State.readV_tick (q : Nibble) : s.tick.readV q = s.readV q := State.readV_congr (by simp) q
@[simp] theorem State.loadByte_tick (a : Nat) : s.tick.loadByte a = s.loadByte a := State.loadByte_congr (by simp) (by simp) a
@[simp] theorem State.keyPressed_tick (k : Nat) : s.tick.keyPressed k = s.keyPressed k := State.keyPressed_congr (by simp) k
@[simp] theorem State.readV_consumeRandom (q : Nibble) : s.consumeRandom.readV q = s.readV q := State.readV_congr (by simp) q
@[simp] theorem State.loadByte_consumeRandom (a : Nat) : s.consumeRandom.loadByte a = s.loadByte a := State.loadByte_congr (by simp) (by simp) a
@[simp] theorem State.keyPressed_consumeRandom (k : Nat) : s.consumeRandom.keyPressed k = s.keyPressed k := State.keyPressed_congr (by simp) k
@[simp] theorem State.readV_latch (kind : FaultKind) (opcode : Option Word) (info : FaultInfo) (q : Nibble) : (s.latch kind opcode info).readV q = s.readV q := State.readV_congr (by simp) q
@[simp] theorem State.loadByte_latch (kind : FaultKind) (opcode : Option Word) (info : FaultInfo) (a : Nat) : (s.latch kind opcode info).loadByte a = s.loadByte a := State.loadByte_congr (by simp) (by simp) a
@[simp] theorem State.keyPressed_latch (kind : FaultKind) (opcode : Option Word) (info : FaultInfo) (k : Nat) : (s.latch kind opcode info).keyPressed k = s.keyPressed k := State.keyPressed_congr (by simp) k
@[simp] theorem State.readV_skipIf (taken : Bool) (q : Nibble) : (s.skipIf taken).readV q = s.readV q := State.readV_congr (by simp) q
@[simp] theorem State.loadByte_skipIf (taken : Bool) (a : Nat) : (s.skipIf taken).loadByte a = s.loadByte a := State.loadByte_congr (by simp) (by simp) a
@[simp] theorem State.keyPressed_skipIf (taken : Bool) (k : Nat) : (s.skipIf taken).keyPressed k = s.keyPressed k := State.keyPressed_congr (by simp) k
@[simp] theorem State.readV_storeByte (a : Nat) (b : Byte) (q : Nibble) : (s.storeByte a b).readV q = s.readV q := State.readV_congr (by simp) q
@[simp] theorem State.keyPressed_storeByte (a : Nat) (b : Byte) (k : Nat) : (s.storeByte a b).keyPressed k = s.keyPressed k := State.keyPressed_congr (by simp) k
@[simp] theorem State.readV_storeBytes (a : Nat) (bs : List Byte) (q : Nibble) :
    (s.storeBytes a bs).readV q = s.readV q := State.readV_congr (by simp) q
@[simp] theorem State.keyPressed_storeBytes (a : Nat) (bs : List Byte) (k : Nat) :
    (s.storeBytes a bs).keyPressed k = s.keyPressed k := State.keyPressed_congr (by simp) k
@[simp] theorem State.loadByte_loadRegs (k : Nat) (bs : List Byte) (a : Nat) :
    (s.loadRegs k bs).loadByte a = s.loadByte a := State.loadByte_congr (by simp) (by simp) a
@[simp] theorem State.keyPressed_loadRegs (k : Nat) (bs : List Byte) (q : Nat) :
    (s.loadRegs k bs).keyPressed q = s.keyPressed q := State.keyPressed_congr (by simp) q
@[simp] theorem State.loadByte_flagThenResult (x a b : Nibble) (flag result : Byte → Byte → Byte) (q : Nat) :
    (s.flagThenResult x a b flag result).loadByte q = s.loadByte q := State.loadByte_congr (by simp) (by simp) q
@[simp] theorem State.keyPressed_flagThenResult (x a b : Nibble) (flag result : Byte → Byte → Byte) (q : Nat) :
    (s.flagThenResult x a b flag result).keyPressed q = s.keyPressed q := State.keyPressed_congr (by simp) q

end Sys2Proof.Machine
end

