-- ==== Sys2Proof/Laws/Ops.lean ====
section
/-! SUPPORT. One lemma for each shared operation, which says all that it can do. -/

namespace Sys2Proof.Machine

variable (s : State)

/-! ### Memory -/

/-- A byte written inside memory is read back, and every other byte reads as before (R56, R64). -/
theorem State.loadByte_storeByte {a : Nat} (ha : a < 4096) (b : Byte) (c : Nat) :
    (s.storeByte a b).loadByte c = if a = c then b else s.loadByte c := by
  have h : s.storeByte a b = { s with mem := s.mem.write s.background a b } := if_pos ha
  rw [h]
  exact Memory.read_write s.mem a c b

/-- A write at or above 4096 reaches nothing (R61). -/
theorem State.storeByte_of_ge {a : Nat} (ha : 4096 ≤ a) (b : Byte) : s.storeByte a b = s :=
  if_neg (Nat.not_lt.mpr ha)

theorem State.storeByte_memWF (h : s.MemWF) (a : Nat) (b : Byte) : (s.storeByte a b).MemWF := by
  unfold State.storeByte
  split
  · next ha => exact Memory.write_wf h ha b
  · exact h

/-- Every run of writes keeps the canonical form. -/
theorem State.storeBytes_memWF (h : s.MemWF) (a : Nat) (bs : List Byte) : (s.storeBytes a bs).MemWF := by
  induction bs generalizing s a with
  | nil => exact h
  | cons b bs ih => exact ih _ (State.storeByte_memWF s h a b) (a + 1)

/-- The bytes of a run of writes inside memory are read back, and every other byte reads as before (R53). -/
theorem State.loadByte_storeBytes {a : Nat} (bs : List Byte) (h : a + bs.length ≤ 4096) (c : Nat) :
    (s.storeBytes a bs).loadByte c = if a ≤ c ∧ c < a + bs.length then bs.getD (c - a) 0 else s.loadByte c := by
  induction bs generalizing s a with
  | nil => simp only [State.storeBytes, List.length_nil]; split <;> [omega; rfl]
  | cons b bs ih =>
    simp only [List.length_cons] at h ⊢
    rw [State.storeBytes, ih _ (by omega), State.loadByte_storeByte s (by omega)]
    by_cases hc : a = c
    · subst hc
      rw [if_neg (by omega), if_pos rfl, if_pos (by omega)]
      simp
    · by_cases hr : a + 1 ≤ c ∧ c < a + 1 + bs.length
      · rw [if_pos hr, if_pos (by omega), show c - a = (c - (a + 1)) + 1 by omega]
        simp
      · rw [if_neg hr, if_neg hc, if_neg (by omega)]

@[simp] theorem State.loadBytes_length (a n : Nat) : (s.loadBytes a n).length = n := by
  simp [State.loadBytes]

theorem State.loadBytes_getD {a n k : Nat} (h : k < n) : (s.loadBytes a n).getD k 0 = s.loadByte (a + k) := by
  simp [State.loadBytes, h]

/-! ### Registers -/

@[simp] theorem State.firstRegs_length (n : Nat) : (s.firstRegs n).length = n := by
  simp [State.firstRegs]

/-- Writes to different registers commute. -/
theorem State.writeV_comm {r x : Nibble} (h : r ≠ x) (a b : Byte) :
    (s.writeV r b).writeV x a = (s.writeV x a).writeV r b := by
  have : r.toNat ≠ x.toNat := fun e => h (BitVec.eq_of_toNat_eq e)
  simp only [State.writeV]
  congr 1
  exact Vector.set_comm _ _ this

theorem State.firstRegs_getD {n k : Nat} (h : k < n) : (s.firstRegs n).getD k 0 = s.readV (BitVec.ofNat 4 k) := by
  simp [State.firstRegs, h]

/-- Registers `k` on hold the listed bytes, and every other register reads as before. -/
theorem State.readV_loadRegs {k : Nat} (bs : List Byte) (h : k + bs.length ≤ 16) (r : Nibble) :
    (s.loadRegs k bs).readV r =
      if k ≤ r.toNat ∧ r.toNat < k + bs.length then bs.getD (r.toNat - k) 0 else s.readV r := by
  induction bs generalizing s k with
  | nil => simp only [State.loadRegs, List.length_nil]; split <;> [omega; rfl]
  | cons b bs ih =>
    simp only [List.length_cons] at h ⊢
    have hk : (BitVec.ofNat 4 k).toNat = k := Nat.mod_eq_of_lt (by omega)
    rw [State.loadRegs, ih _ (by omega), State.readV_writeV]
    by_cases hr : BitVec.ofNat 4 k = r
    · subst hr
      rw [if_neg (by omega), if_pos rfl, if_pos (by omega), hk]
      simp
    · have hne : k ≠ r.toNat := fun h => hr (by rw [h, BitVec.ofNat_toNat, BitVec.setWidth_eq])
      by_cases hi : k + 1 ≤ r.toNat ∧ r.toNat < k + 1 + bs.length
      · rw [if_pos hi, if_pos (by omega), show r.toNat - k = (r.toNat - (k + 1)) + 1 by omega]
        simp
      · rw [if_neg hi, if_neg hr, if_neg (by omega)]

/-- Both flag orders of R153, register by register. -/
theorem State.readV_flagThenResult (x a b r : Nibble) (flag result : Byte → Byte → Byte) :
    (s.flagThenResult x a b flag result).readV r =
      let f := flag (s.readV a) (s.readV b)
      let operand (q : Nibble) := match s.cfg.aluFlagOrder with
        | .sequential   => if VF = q then f else s.readV q
        | .simultaneous => s.readV q
      if x = r then result (operand a) (operand b) else if VF = r then f else s.readV r := by
  unfold State.flagThenResult
  cases s.cfg.aluFlagOrder <;> simp [State.readV_writeV]

/-! ### Faults and ranges -/

/-- A fault raised in the execute phase leaves the state before the cycle, with FAULT latched (R106, R256). -/
theorem State.raise_advance (i : Instr) (kind : FaultKind) (info : FaultInfo) :
    s.advance.raise i kind info = .next (s.latch kind (some (encode i)) info) := by
  simp [State.raise, State.latch, State.unadvance, State.advance]

theorem outOfRange_eq_none {base count : Nat} : outOfRange base count = none ↔ count = 0 ∨ base + count ≤ 4096 := by
  unfold outOfRange
  simp only [memSize]
  split <;> simp <;> omega

theorem outOfRange_eq_some {base count a : Nat} :
    outOfRange base count = some a ↔ 0 < count ∧ 4096 < base + count ∧ a = max base 4096 := by
  unfold outOfRange
  simp only [memSize]
  split
  · simp only [Option.some.injEq]; omega
  · simp only [reduceCtorEq, false_iff]; omega

/-- An access in range has its effect; one out of range raises with the lowest address that is (R176). -/
theorem State.withDataRange_eq (i : Instr) (count : Nat) (t : State) :
    s.withDataRange i count t =
      if count = 0 ∨ s.i.toNat + count ≤ 4096 then .next t
      else s.raise i .memoryOutOfBounds (.addr (max s.i.toNat 4096)) := by
  unfold State.withDataRange
  split
  · next h =>
    obtain ⟨h₁, h₂, rfl⟩ := outOfRange_eq_some.mp h
    rw [if_neg (by omega)]
  · next h => rw [if_pos (outOfRange_eq_none.mp h)]

/-! ### Keys -/

/-- No key is pressed, or the lowest pressed key is found (R212). -/
theorem State.lowestKey_cases :
    (s.lowestKey = none ∧ ∀ k, k < 16 → s.keyPressed k = false) ∨
    ∃ k, s.lowestKey = some k ∧ k < 16 ∧ s.keyPressed k = true ∧ ∀ j, j < k → s.keyPressed j = false := by
  unfold State.lowestKey
  cases h : (List.range 16).find? s.keyPressed with
  | none =>
    refine .inl ⟨rfl, fun k hk => ?_⟩
    simpa using List.find?_eq_none.mp h k (List.mem_range.mpr hk)
  | some k =>
    obtain ⟨h₁, i, hi, hk, h₂⟩ := List.find?_eq_some_iff_getElem.mp h
    simp only [List.length_range] at hi
    simp only [List.getElem_range] at hk h₂
    subst hk
    exact .inr ⟨i, rfl, hi, h₁, fun j hj => by simpa using h₂ j hj⟩

/-! ### Framebuffer -/

theorem Framebuffer.cell_clear (idx : Nat) : Framebuffer.clear.cell idx = false := by
  simp only [Framebuffer.cell, Framebuffer.clear, Vector.getElem?_replicate]
  split <;> simp

/-- Toggling a cell of the framebuffer flips that cell and no other. -/
theorem Framebuffer.cell_toggle (fb : Framebuffer) {idx : Nat} (h : idx < 2048) (j : Nat) :
    (fb.toggle idx).cell j = (fb.cell j ^^ decide (idx = j)) := by
  have hr : idx / 64 < 32 := by omega
  have hb : idx % 64 < 64 := by omega
  simp only [Framebuffer.cell, Framebuffer.toggle, fbWidth, Vector.getElem?_setIfInBounds]
  by_cases hrow : idx / 64 = j / 64
  · simp only [hrow, if_true, hrow ▸ hr, Option.getD_some, BitVec.getLsbD_xor, BitVec.getLsbD_twoPow, hb, decide_true,
      Bool.true_and]
    congr 1
    rw [Bool.eq_iff_iff]
    simp only [decide_eq_true_eq]
    omega
  · have : idx ≠ j := fun h => hrow (by rw [h])
    simp [hrow, this]

end Sys2Proof.Machine
end

