-- ==== Sys2Proof/Laws/Display.lean ====
section
/-! SUPPORT. What drawing does to each cell and to the collision flag (R191). -/

namespace Sys2Proof.Machine

/-- Column `c` of a sprite row paints a cell: it is inside the framebuffer and its bit is set. -/
def paints (b : Byte) (ox c : Nat) : Prop := ox + c < 64 ∧ b.getLsbD (7 - c) = true

theorem drawColumn_cell (b : Byte) (ox y c j : Nat) (cv : Canvas) (hy : y < 32) :
    (drawColumn b ox y cv c).1.cell j = true ↔
      ((cv.1.cell j = true) ≠ (paints b ox c ∧ y * 64 + (ox + c) = j)) := by
  unfold drawColumn paints
  simp only [fbWidth]
  by_cases h : ox + c < 64 ∧ b.getLsbD (7 - c) = true
  · rw [if_pos h, Framebuffer.cell_toggle _ (by omega)]
    by_cases hj : y * 64 + (ox + c) = j <;> cases cv.1.cell j <;> simp [h, hj]
  · rw [if_neg h]
    simp only [h, false_and]
    cases cv.1.cell j <;> simp

theorem drawColumn_collision (b : Byte) (ox y c : Nat) (cv : Canvas) :
    (drawColumn b ox y cv c).2 = true ↔
      cv.2 = true ∨ (paints b ox c ∧ cv.1.cell (y * 64 + (ox + c)) = true) := by
  unfold drawColumn paints
  simp only [fbWidth]
  split
  · next h => simp [h]
  · next h => simp [h]

/-- Columns with no repeats: each painted cell is flipped once, and a collision is a painted cell that was on. -/
theorem drawColumns_spec (b : Byte) (ox y : Nat) (hy : y < 32) (cols : List Nat) (hn : cols.Nodup) (cv : Canvas) :
    (∀ j, (cols.foldl (drawColumn b ox y) cv).1.cell j = true ↔
      ((cv.1.cell j = true) ≠ (∃ c ∈ cols, paints b ox c ∧ y * 64 + (ox + c) = j))) ∧
    ((cols.foldl (drawColumn b ox y) cv).2 = true ↔
      cv.2 = true ∨ ∃ c ∈ cols, paints b ox c ∧ cv.1.cell (y * 64 + (ox + c)) = true) := by
  induction cols generalizing cv with
  | nil => simp
  | cons c cols ih =>
    obtain ⟨hc, hn⟩ := List.nodup_cons.mp hn
    obtain ⟨ih₁, ih₂⟩ := ih hn (drawColumn b ox y cv c)
    have fresh : ∀ d ∈ cols, y * 64 + (ox + c) ≠ y * 64 + (ox + d) := fun d hd h =>
      hc (by rwa [show c = d by omega])
    refine ⟨fun j => ?_, ?_⟩
    · rw [List.foldl_cons, ih₁ j, drawColumn_cell _ _ _ _ _ _ hy]
      simp only [List.mem_cons, exists_eq_or_imp]
      by_cases h₁ : paints b ox c ∧ y * 64 + (ox + c) = j
      · have h₂ : ¬∃ d ∈ cols, paints b ox d ∧ y * 64 + (ox + d) = j := by
          rintro ⟨d, hd, _, hj⟩
          exact fresh d hd (h₁.2.trans hj.symm)
        simp [h₁, h₂]
      · simp [h₁]
    · rw [List.foldl_cons, ih₂, drawColumn_collision]
      simp only [List.mem_cons, exists_eq_or_imp, or_assoc]
      refine or_congr_right (or_congr_right (exists_congr fun d => and_congr_right fun hd => and_congr_right fun _ => ?_))
      rw [drawColumn_cell _ _ _ _ _ _ hy]
      have : ¬(paints b ox c ∧ y * 64 + (ox + c) = y * 64 + (ox + d)) := fun h => fresh d hd h.2
      rw [eq_false this]
      simp

/-- The cell a sprite from row `y` on paints with bit `7 - c` of its `k`-th byte. -/
def paintsAt (bs : List Byte) (ox y j : Nat) : Prop :=
  ∃ k, k < bs.length ∧ ∃ c, c < 8 ∧ paints (bs.getD k 0) ox c ∧ (y + k) * 64 + (ox + c) = j

theorem paintsAt_cons (b : Byte) (bs : List Byte) (ox y j : Nat) :
    paintsAt (b :: bs) ox y j ↔
      (∃ c, c < 8 ∧ paints b ox c ∧ y * 64 + (ox + c) = j) ∨ paintsAt bs ox (y + 1) j := by
  constructor
  · rintro ⟨k, hk, c, hc, hp, hj⟩
    cases k with
    | zero => exact .inl ⟨c, hc, by simpa using hp, by simpa using hj⟩
    | succ k =>
      exact .inr ⟨k, by simpa using hk, c, hc, by simpa using hp, by rw [← hj]; congr 2; omega⟩
  · rintro (⟨c, hc, hp, hj⟩ | ⟨k, hk, c, hc, hp, hj⟩)
    · exact ⟨0, by simp, c, hc, by simpa using hp, by simpa using hj⟩
    · exact ⟨k + 1, by simpa using hk, c, hc, by simpa using hp, by rw [← hj]; congr 2; omega⟩

/-- Everything a draw does to the framebuffer: it flips exactly the painted cells, and collides exactly when one of
them was on before the draw. -/
theorem drawRows_spec (ox y : Nat) (bs : List Byte) (h : y + bs.length ≤ 32) (cv : Canvas) :
    (∀ j, (drawRows ox y bs cv).1.cell j = true ↔ ((cv.1.cell j = true) ≠ paintsAt bs ox y j)) ∧
    ((drawRows ox y bs cv).2 = true ↔ cv.2 = true ∨ ∃ j, paintsAt bs ox y j ∧ cv.1.cell j = true) := by
  induction bs generalizing y cv with
  | nil => simp [drawRows, paintsAt]
  | cons b bs ih =>
    simp only [List.length_cons] at h
    obtain ⟨ih₁, ih₂⟩ := ih (y + 1) (by omega) (drawRow b ox y cv)
    obtain ⟨row₁, row₂⟩ := drawColumns_spec b ox y (by omega) (List.range 8) List.nodup_range cv
    change ∀ j, (drawRow b ox y cv).1.cell j = true ↔ _ at row₁
    change (drawRow b ox y cv).2 = true ↔ _ at row₂
    simp only [List.mem_range] at row₁ row₂
    have apart : ∀ j, (∃ c, c < 8 ∧ paints b ox c ∧ y * 64 + (ox + c) = j) → ¬paintsAt bs ox (y + 1) j := by
      rintro j ⟨c, _, hp, hj⟩ ⟨k, _, d, _, hq, hk⟩
      have := hp.1
      have := hq.1
      have : (y + 1 + k) * 64 = y * 64 + 64 + k * 64 := by omega
      omega
    refine ⟨fun j => ?_, ?_⟩
    · rw [drawRows, ih₁ j, row₁ j, paintsAt_cons]
      by_cases h₁ : ∃ c, c < 8 ∧ paints b ox c ∧ y * 64 + (ox + c) = j
      · simp [h₁, apart j h₁]
      · simp [h₁]
    · rw [drawRows, ih₂, row₂]
      simp only [paintsAt_cons, or_and_right, exists_or, or_assoc]
      refine or_congr_right (or_congr ?_ (exists_congr fun j => and_congr_right fun hj => ?_))
      · constructor
        · rintro ⟨c, hc, hp, hon⟩; exact ⟨_, ⟨c, hc, hp, rfl⟩, hon⟩
        · rintro ⟨_, ⟨c, hc, hp, rfl⟩, hon⟩; exact ⟨c, hc, hp, hon⟩
      · rw [row₁ j]
        have : ¬∃ c, c < 8 ∧ paints b ox c ∧ y * 64 + (ox + c) = j := fun h => apart j h hj
        simp [this]

end Sys2Proof.Machine
end

