-- ==== Sys2Proof/Laws/PerInstr.lean ====
section
/-! SUPPORT. A statement about each instruction as syntax: its word lies in its line of the opcode map (R76). -/

namespace Sys2Proof.Laws.WordInRow

/-- The line of R76 that is this instruction's. -/
def row : Instr → Nat
  | .cls _        => 0
  | .ret _        => 1
  | .jp _         => 2
  | .call _       => 3
  | .seImm _ _    => 4
  | .sneImm _ _   => 5
  | .seReg _ _ _  => 6
  | .ldImm _ _    => 7
  | .addImm _ _   => 8
  | .ldReg _ _    => 9
  | .orReg _ _    => 10
  | .andReg _ _   => 11
  | .xorReg _ _   => 12
  | .addReg _ _   => 13
  | .subReg _ _   => 14
  | .shr _ _      => 15
  | .subnReg _ _  => 16
  | .shl _ _      => 17
  | .sneReg _ _ _ => 18
  | .ldI _        => 19
  | .jpV0 _       => 20
  | .rnd _ _      => 21
  | .drw _ _ _    => 22
  | .skp _        => 23
  | .sknp _       => 24
  | .ldVxDt _     => 25
  | .ldVxK _      => 26
  | .ldDtVx _     => 27
  | .ldStVx _     => 28
  | .addIVx _     => 29
  | .ldFVx _      => 30
  | .ldBVx _      => 31
  | .ldMemVx _    => 32
  | .ldVxMem _    => 33

/-- The instruction's line of the map covers its word under the default mask, and reads its operands back. -/
def Statement (i : Instr) : Prop :=
  ∃ r, opcodeMap[row i]? = some r ∧ r.covers false (encode i) = true ∧ r.make (encode i) = i

/-- A line whose mask gives the match for this word, and which reads the operands back, is the statement. -/
theorem of_row {i : Instr} {r : OpcodeRow} (hr : opcodeMap[row i]? = some r)
    (hm : encode i &&& r.mask = r.matchBits) (hi : r.make (encode i) = i) : Statement i :=
  ⟨r, hr, by simp [OpcodeRow.covers, hm], hi⟩

theorem cls (x : Nibble) : Statement (.cls x) :=
  of_row rfl (encodeRegByte_mask_byte _ _ _)
    (congrArg Instr.cls (opX_encodeRegByte _ _ _))

theorem ret (x : Nibble) : Statement (.ret x) :=
  of_row rfl (encodeRegByte_mask_byte _ _ _)
    (congrArg Instr.ret (opX_encodeRegByte _ _ _))

theorem jp (nnn : Addr12) : Statement (.jp nnn) :=
  of_row rfl (encodeAddr_mask _ _)
    (congrArg Instr.jp (opNNN_encodeAddr _ _))

theorem call (nnn : Addr12) : Statement (.call nnn) :=
  of_row rfl (encodeAddr_mask _ _)
    (congrArg Instr.call (opNNN_encodeAddr _ _))

theorem seImm (x : Nibble) (kk : Byte) : Statement (.seImm x kk) :=
  of_row rfl (encodeRegByte_mask_family _ _ _)
    (congrArg₂ Instr.seImm (opX_encodeRegByte _ _ _) (opKK_encodeRegByte _ _ _))

theorem sneImm (x : Nibble) (kk : Byte) : Statement (.sneImm x kk) :=
  of_row rfl (encodeRegByte_mask_family _ _ _)
    (congrArg₂ Instr.sneImm (opX_encodeRegByte _ _ _) (opKK_encodeRegByte _ _ _))

theorem seReg (x y u : Nibble) : Statement (.seReg x y u) :=
  of_row rfl (encodeRegReg_mask_family _ _ _ _)
    (by simp [encode, opX_encodeRegReg, opY_encodeRegReg, opN_encodeRegReg])

theorem ldImm (x : Nibble) (kk : Byte) : Statement (.ldImm x kk) :=
  of_row rfl (encodeRegByte_mask_family _ _ _)
    (congrArg₂ Instr.ldImm (opX_encodeRegByte _ _ _) (opKK_encodeRegByte _ _ _))

theorem addImm (x : Nibble) (kk : Byte) : Statement (.addImm x kk) :=
  of_row rfl (encodeRegByte_mask_family _ _ _)
    (congrArg₂ Instr.addImm (opX_encodeRegByte _ _ _) (opKK_encodeRegByte _ _ _))

theorem ldReg (x y : Nibble) : Statement (.ldReg x y) :=
  of_row rfl (encodeRegReg_mask_nibble _ _ _ _)
    (congrArg₂ Instr.ldReg (opX_encodeRegReg _ _ _ _) (opY_encodeRegReg _ _ _ _))

theorem orReg (x y : Nibble) : Statement (.orReg x y) :=
  of_row rfl (encodeRegReg_mask_nibble _ _ _ _)
    (congrArg₂ Instr.orReg (opX_encodeRegReg _ _ _ _) (opY_encodeRegReg _ _ _ _))

theorem andReg (x y : Nibble) : Statement (.andReg x y) :=
  of_row rfl (encodeRegReg_mask_nibble _ _ _ _)
    (congrArg₂ Instr.andReg (opX_encodeRegReg _ _ _ _) (opY_encodeRegReg _ _ _ _))

theorem xorReg (x y : Nibble) : Statement (.xorReg x y) :=
  of_row rfl (encodeRegReg_mask_nibble _ _ _ _)
    (congrArg₂ Instr.xorReg (opX_encodeRegReg _ _ _ _) (opY_encodeRegReg _ _ _ _))

theorem addReg (x y : Nibble) : Statement (.addReg x y) :=
  of_row rfl (encodeRegReg_mask_nibble _ _ _ _)
    (congrArg₂ Instr.addReg (opX_encodeRegReg _ _ _ _) (opY_encodeRegReg _ _ _ _))

theorem subReg (x y : Nibble) : Statement (.subReg x y) :=
  of_row rfl (encodeRegReg_mask_nibble _ _ _ _)
    (congrArg₂ Instr.subReg (opX_encodeRegReg _ _ _ _) (opY_encodeRegReg _ _ _ _))

theorem shr (x y : Nibble) : Statement (.shr x y) :=
  of_row rfl (encodeRegReg_mask_nibble _ _ _ _)
    (congrArg₂ Instr.shr (opX_encodeRegReg _ _ _ _) (opY_encodeRegReg _ _ _ _))

theorem subnReg (x y : Nibble) : Statement (.subnReg x y) :=
  of_row rfl (encodeRegReg_mask_nibble _ _ _ _)
    (congrArg₂ Instr.subnReg (opX_encodeRegReg _ _ _ _) (opY_encodeRegReg _ _ _ _))

theorem shl (x y : Nibble) : Statement (.shl x y) :=
  of_row rfl (encodeRegReg_mask_nibble _ _ _ _)
    (congrArg₂ Instr.shl (opX_encodeRegReg _ _ _ _) (opY_encodeRegReg _ _ _ _))

theorem sneReg (x y u : Nibble) : Statement (.sneReg x y u) :=
  of_row rfl (encodeRegReg_mask_family _ _ _ _)
    (by simp [encode, opX_encodeRegReg, opY_encodeRegReg, opN_encodeRegReg])

theorem ldI (nnn : Addr12) : Statement (.ldI nnn) :=
  of_row rfl (encodeAddr_mask _ _)
    (congrArg Instr.ldI (opNNN_encodeAddr _ _))

theorem jpV0 (nnn : Addr12) : Statement (.jpV0 nnn) :=
  of_row rfl (encodeAddr_mask _ _)
    (congrArg Instr.jpV0 (opNNN_encodeAddr _ _))

theorem rnd (x : Nibble) (kk : Byte) : Statement (.rnd x kk) :=
  of_row rfl (encodeRegByte_mask_family _ _ _)
    (congrArg₂ Instr.rnd (opX_encodeRegByte _ _ _) (opKK_encodeRegByte _ _ _))

theorem drw (x y u : Nibble) : Statement (.drw x y u) :=
  of_row rfl (encodeRegReg_mask_family _ _ _ _)
    (by simp [encode, opX_encodeRegReg, opY_encodeRegReg, opN_encodeRegReg])

theorem skp (x : Nibble) : Statement (.skp x) :=
  of_row rfl (encodeRegByte_mask_byte _ _ _)
    (congrArg Instr.skp (opX_encodeRegByte _ _ _))

theorem sknp (x : Nibble) : Statement (.sknp x) :=
  of_row rfl (encodeRegByte_mask_byte _ _ _)
    (congrArg Instr.sknp (opX_encodeRegByte _ _ _))

theorem ldVxDt (x : Nibble) : Statement (.ldVxDt x) :=
  of_row rfl (encodeRegByte_mask_byte _ _ _)
    (congrArg Instr.ldVxDt (opX_encodeRegByte _ _ _))

theorem ldVxK (x : Nibble) : Statement (.ldVxK x) :=
  of_row rfl (encodeRegByte_mask_byte _ _ _)
    (congrArg Instr.ldVxK (opX_encodeRegByte _ _ _))

theorem ldDtVx (x : Nibble) : Statement (.ldDtVx x) :=
  of_row rfl (encodeRegByte_mask_byte _ _ _)
    (congrArg Instr.ldDtVx (opX_encodeRegByte _ _ _))

theorem ldStVx (x : Nibble) : Statement (.ldStVx x) :=
  of_row rfl (encodeRegByte_mask_byte _ _ _)
    (congrArg Instr.ldStVx (opX_encodeRegByte _ _ _))

theorem addIVx (x : Nibble) : Statement (.addIVx x) :=
  of_row rfl (encodeRegByte_mask_byte _ _ _)
    (congrArg Instr.addIVx (opX_encodeRegByte _ _ _))

theorem ldFVx (x : Nibble) : Statement (.ldFVx x) :=
  of_row rfl (encodeRegByte_mask_byte _ _ _)
    (congrArg Instr.ldFVx (opX_encodeRegByte _ _ _))

theorem ldBVx (x : Nibble) : Statement (.ldBVx x) :=
  of_row rfl (encodeRegByte_mask_byte _ _ _)
    (congrArg Instr.ldBVx (opX_encodeRegByte _ _ _))

theorem ldMemVx (x : Nibble) : Statement (.ldMemVx x) :=
  of_row rfl (encodeRegByte_mask_byte _ _ _)
    (congrArg Instr.ldMemVx (opX_encodeRegByte _ _ _))

theorem ldVxMem (x : Nibble) : Statement (.ldVxMem x) :=
  of_row rfl (encodeRegByte_mask_byte _ _ _)
    (congrArg Instr.ldVxMem (opX_encodeRegByte _ _ _))

end Sys2Proof.Laws.WordInRow
end

