-- ==== Sys2Proof/Laws/Step.lean ====
section
/-! SUPPORT. What a cycle can do (R106), said once. -/

namespace Sys2Proof.Machine

/-- A halted machine executes nothing (R107). -/
theorem step_halted {s : State} {r : FaultRecord} (h : s.fault = some r) : step s = .fault (.halted r) := by
  simp [step, runCycle, h]

/-- A fetch at PC >= 4095 latches its fault (R101). -/
theorem step_fetch_fault {s : State} (h : s.fault = none) (hp : 4095 ≤ s.pc.toNat) :
    step s = .next (s.latch .fetchOutOfBounds none .none) := by
  simp [step, runCycle, h, State.fetchOutOfBounds, hp]

/-- A fetch in bounds runs the word it reads. -/
theorem step_run {s : State} (h : s.fault = none) (hp : s.pc.toNat < 4095) : step s = s.runWord s.fetchWord := by
  simp [step, runCycle, h, State.fetchOutOfBounds, hp]

/-- The end of a cycle whose operation raised nothing: the timers tick (R105). -/
theorem finishCycle_next {t : State} (h : t.fault = none) : finishCycle (.next t) = .next t.tick := by
  simp [finishCycle, h]

/-- The end of a cycle whose operation latched a fault: nothing ticks (R106). -/
theorem finishCycle_faulted {t : State} {r : FaultRecord} (h : t.fault = some r) : finishCycle (.next t) = .next t := by
  simp [finishCycle, h]

/-- Everything a step that answers a next state can have done. -/
theorem step_cases {s t : State} (h : step s = .next t) :
    (s.fault = none ∧ 4095 ≤ s.pc.toNat ∧ t = s.latch .fetchOutOfBounds none .none) ∨
    (s.fault = none ∧ s.pc.toNat < 4095 ∧ ∃ u,
      executeOperation (decode s.cfg.strictDecode s.fetchWord) s.advance = .next u ∧
      t = if u.fault.isSome then u else u.tick) := by
  cases hf : s.fault with
  | some r => rw [step_halted hf] at h; exact nomatch h
  | none =>
    by_cases hp : 4095 ≤ s.pc.toNat
    · rw [step_fetch_fault hf hp] at h
      exact .inl ⟨rfl, hp, (Host.Outcome.next.inj h).symm⟩
    · rw [step_run hf (by omega), State.runWord] at h
      refine .inr ⟨rfl, by omega, ?_⟩
      revert h
      cases executeOperation (decode s.cfg.strictDecode s.fetchWord) s.advance with
      | next u => intro h; exact ⟨u, rfl, (Host.Outcome.next.inj h).symm⟩
      | fault r => exact fun h => nomatch h
      | refused r => exact fun h => nomatch h

/-- The `cycle` transaction of a step that raised nothing (R234). -/
theorem hostCycle_ok {s t : State} (h : step s = .next t) (hf : t.fault = none) : s.hostCycle = (t, .ok) := by
  simp [State.hostCycle, h, hf]

/-- The `cycle` transaction of a step that latched a fault (R234). -/
theorem hostCycle_faulted {s t : State} {r : FaultRecord} (h : step s = .next t) (hf : t.fault = some r) :
    s.hostCycle = (t, .faulted r) := by
  simp [State.hostCycle, h, hf]

end Sys2Proof.Machine
end

