-- ==== Sys2Proof/Tests/Slice0.lean ====
section
/-! SUPPORT. Tests of the model. Every expected value is one of spec/95_test_vectors.md (named in the comment), or a word
written out from the encoding tables of spec/30_encoding.md. -/

namespace Sys2Proof.Tests

open Sys2Proof.Machine

/-! ### Well-formedness: one ill-formed term for each check -/

theorem test_wf_cls : (Instr.cls 1).wellFormed true = false := by decide
theorem test_wf_ret : (Instr.ret 5).wellFormed true = false := by decide
theorem test_wf_seReg : (Instr.seReg 1 2 1).wellFormed true = false := by decide
theorem test_wf_sneReg : (Instr.sneReg 1 2 15).wellFormed true = false := by decide
theorem test_wf_default : (Instr.cls 1).wellFormed false = true ∧ (Instr.cls 0).wellFormed true = true := by decide

/-! ### Decoding: a word of each row, written out from R76 -/

theorem test_decode_fix : decode false 0b0000000011100000 = .op (.cls 0) ∧ decode false 0b0000000011101110 = .op (.ret 0) := by decide
theorem test_decode_jp : decode false 0b0001001000101000 = .op (.jp 0x228) := by decide
theorem test_decode_call : decode false 0b0010001100000000 = .op (.call 0x300) := by decide
theorem test_decode_se_imm : decode false 0b0011001101000010 = .op (.seImm 3 0x42) := by decide
theorem test_decode_sne_imm : decode false 0b0100001101000010 = .op (.sneImm 3 0x42) := by decide
theorem test_decode_se_reg : decode false 0b0101000100100000 = .op (.seReg 1 2 0) := by decide
theorem test_decode_ld_imm : decode false 0b0110101010011101 = .op (.ldImm 0xA 0x9D) := by decide
theorem test_decode_add_imm : decode false 0b0111001000001010 = .op (.addImm 2 0x0A) := by decide
theorem test_decode_ld_reg : decode false 0b1000000100100000 = .op (.ldReg 1 2) := by decide
theorem test_decode_or : decode false 0b1000000100100001 = .op (.orReg 1 2) := by decide
theorem test_decode_and : decode false 0b1000000100100010 = .op (.andReg 1 2) := by decide
theorem test_decode_xor : decode false 0b1000000100100011 = .op (.xorReg 1 2) := by decide
theorem test_decode_add_reg : decode false 0b1000000100100100 = .op (.addReg 1 2) := by decide
theorem test_decode_sub : decode false 0b1000000100100101 = .op (.subReg 1 2) := by decide
theorem test_decode_shr : decode false 0b1000001101000110 = .op (.shr 3 4) := by decide
theorem test_decode_subn : decode false 0b1000000100100111 = .op (.subnReg 1 2) := by decide
theorem test_decode_shl : decode false 0b1000001100001110 = .op (.shl 3 0) := by decide
theorem test_decode_sne_reg : decode false 0b1001000100100000 = .op (.sneReg 1 2 0) := by decide
theorem test_decode_ld_i : decode false 0b1010000100100011 = .op (.ldI 0x123) := by decide
theorem test_decode_jp_v0 : decode false 0b1011010111111111 = .op (.jpV0 0x5FF) := by decide
theorem test_decode_rnd : decode false 0b1100010100001111 = .op (.rnd 5 0x0F) := by decide
theorem test_decode_drw : decode false 0b1101000000010101 = .op (.drw 0 1 5) := by decide
theorem test_decode_skp : decode false 0b1110010010011110 = .op (.skp 4) := by decide
theorem test_decode_sknp : decode false 0b1110010010100001 = .op (.sknp 4) := by decide
theorem test_decode_ld_vx_dt : decode false 0b1111001100000111 = .op (.ldVxDt 3) := by decide
theorem test_decode_ld_vx_k : decode false 0b1111010100001010 = .op (.ldVxK 5) := by decide
theorem test_decode_ld_dt_vx : decode false 0b1111001100010101 = .op (.ldDtVx 3) := by decide
theorem test_decode_ld_st_vx : decode false 0b1111001100011000 = .op (.ldStVx 3) := by decide
theorem test_decode_add_i_vx : decode false 0b1111001000011110 = .op (.addIVx 2) := by decide
theorem test_decode_ld_f_vx : decode false 0b1111001000101001 = .op (.ldFVx 2) := by decide
theorem test_decode_ld_b_vx : decode false 0b1111010000110011 = .op (.ldBVx 4) := by decide
theorem test_decode_ld_mem_vx : decode false 0b1111001001010101 = .op (.ldMemVx 2) := by decide
theorem test_decode_ld_vx_mem : decode false 0b1111001001100101 = .op (.ldVxMem 2) := by decide

/-- V2, V3, V9, V10, V11: words of the NOP space. -/
theorem test_decode_nop : [0x0000, 0x0123, 0x00E1, 0x8128, 0x812F, 0xE09F, 0xE0A0, 0xF0FF, 0xF01F, 0xF164].all
    (fun w => decode false w == .nop) = true := by decide

/-- V4 to V8: the nibble that only STRICT_DECODE looks at. -/
theorem test_decode_strict : decode true 0x01E0 = .nop ∧ decode true 0x05EE = .nop ∧ decode true 0x5121 = .nop ∧
    decode true 0x9121 = .nop ∧ decode false 0x01E0 = .op (.cls 1) := by decide

theorem test_decode_truncated : decodeBytes false [0x12] = .error .truncated := by decide
theorem test_decode_big_endian : decodeBytes false [0x63, 0x42, 0x33] = .ok (.op (.ldImm 3 0x42), [0x33]) := by decide
theorem test_table_word : decodeTableWord 16 0xF265 = some (.ldVxMem 2) ∧ decodeTableWord 16 0x0123 = none := by decide

/-! ### One cycle -/

/-- The state after one cycle on the word `w` at PC. -/
def after (s : State) (w : Nat) : State :=
  match step (s.withFetchWord 16 w) with
  | .next t    => t
  | .fault _   => s
  | .refused _ => s

/-- S0 of spec/95_test_vectors.md with registers `x` and `y` set. -/
def withRegs (x : Nibble) (a : Byte) (y : Nibble) (b : Byte) : State := (State.reset.writeV x a).writeV y b

/-- S0 with every operand of an ALU operation read before its first write. -/
def simultaneous (s : State) : State := { s with cfg := { s.cfg with aluFlagOrder := .simultaneous } }

/-- S0 with I set and the listed bytes from I on. -/
def withData (a : Word) (bs : List Byte) : State := State.storeBytes { State.reset with i := a } a.toNat bs

/-- V1, V13, V14: a NOP advances PC and ticks the timers, which stop at 0. -/
theorem test_nop : (after { State.reset with dt := 1, st := 2 } 0x0000).pc = 0x202 ∧
    (after { State.reset with dt := 1, st := 2 } 0x0000).dt = 0 ∧
    (after { State.reset with dt := 1, st := 2 } 0x0000).st = 1 ∧ (after State.reset 0x0000).dt = 0 := by decide

/-- V16: a fetch at 0xFFF faults and nothing ticks. -/
theorem test_fetch_fault : step { State.reset with pc := 0xFFF, dt := 5 } =
    .next { State.reset with pc := 0xFFF, dt := 5, fault := some ⟨.fetchOutOfBounds, 0xFFF, none, .none⟩ } := by rfl

/-- V17: a halted machine keeps its record. -/
theorem test_halted : (transact { State.reset with dt := 5, fault := some ⟨.stackUnderflow, 0x200, some 0xEE, .none⟩ } .cycle).1.dt = 5 := by decide

/-- V20, V6. -/
theorem test_ret : (after { State.reset with stack := [0x0206], pc := 0x210 } 0x00EE).pc = 0x206 ∧
    (after { State.reset with stack := [0x0206], pc := 0x210 } 0x00EE).stack = [] := by decide
theorem test_ret_underflow : (after State.reset 0x01EE).fault = some ⟨.stackUnderflow, 0x200, some 0x01EE, .none⟩ ∧
    (after State.reset 0x01EE).pc = 0x200 := by decide

/-- V23, V26. -/
theorem test_jp : (after State.reset 0x1228).pc = 0x228 ∧ (after State.reset 0x1201).pc = 0x201 := by decide

/-- V27, V29. -/
theorem test_call : (after { State.reset with pc := 0x204 } 0x2300).stack = [0x0206] ∧
    (after { State.reset with pc := 0x204 } 0x2300).pc = 0x300 := by decide
theorem test_call_overflow : (after { State.resetWith { Config.default with stackCap := some 2 } with stack := [0x202, 0x202] } 0x2200).fault =
    some ⟨.stackOverflow, 0x200, some 0x2200, .none⟩ := by decide

/-- V31, V32. -/
theorem test_jp_v0 : (after (State.reset.writeV 0 0x10) 0xB300).pc = 0x310 ∧
    (after (State.reset.writeV 0 0xFF) 0xBFFF).pc = 0x10FE := by decide

/-- V34 to V42 (at p = 0x200). -/
theorem test_se_imm : (after (State.reset.writeV 3 0x42) 0x3342).pc = 0x204 ∧
    (after (State.reset.writeV 3 0x41) 0x3342).pc = 0x202 := by decide
theorem test_sne_imm : (after (State.reset.writeV 3 0x41) 0x4342).pc = 0x204 ∧
    (after (State.reset.writeV 3 0x42) 0x4342).pc = 0x202 := by decide
theorem test_se_reg : (after (withRegs 1 7 2 7) 0x5120).pc = 0x204 ∧ (after (withRegs 1 7 2 8) 0x5120).pc = 0x202 := by decide
theorem test_sne_reg : (after (withRegs 1 7 2 8) 0x9120).pc = 0x204 ∧ (after (withRegs 1 9 2 8) 0x9110).pc = 0x202 := by decide

/-- V50, E2, V54, V55 to V58. -/
theorem test_ld_imm : (after State.reset 0x6A9D).readV 0xA = 0x9D := by decide
theorem test_add_imm : (after (withRegs 2 250 0xF 0x77) 0x720A).readV 2 = 4 ∧
    (after (withRegs 2 250 0xF 0x77) 0x720A).readV 0xF = 0x77 := by decide
theorem test_ld_reg : (after (State.reset.writeV 2 0x33) 0x8120).readV 1 = 0x33 := by decide
theorem test_or : (after ((withRegs 1 0xF0 2 0x0F).writeV 0xF 9) 0x8121).readV 1 = 0xFF ∧
    (after ((withRegs 1 0xF0 2 0x0F).writeV 0xF 9) 0x8121).readV 0xF = 9 := by decide
theorem test_and : (after (withRegs 1 0xF0 2 0x3C) 0x8122).readV 1 = 0x30 := by decide
theorem test_xor : (after (withRegs 1 0xF0 2 0x3C) 0x8123).readV 1 = 0xCC := by decide

/-- E3, V63, V64. -/
theorem test_add_reg : (after (withRegs 1 200 2 100) 0x8124).readV 1 = 44 ∧
    (after (withRegs 1 200 2 100) 0x8124).readV 0xF = 1 := by decide
theorem test_add_reg_vf : (after (withRegs 0xF 0xFF 1 1) 0x8F14).readV 0xF = 1 ∧
    (after (withRegs 1 3 0xF 5) 0x81F4).readV 1 = 8 := by decide

/-- E4, V69, V70. -/
theorem test_sub : (after (withRegs 1 5 2 10) 0x8125).readV 1 = 251 ∧
    (after (withRegs 1 5 2 10) 0x8125).readV 0xF = 0 ∧ (after (withRegs 1 7 2 7) 0x8125).readV 0xF = 0 := by decide
theorem test_sub_vf : (after (withRegs 0xF 5 1 3) 0x8F15).readV 0xF = 254 ∧
    (after (simultaneous (withRegs 0xF 5 1 3)) 0x8F15).readV 0xF = 2 ∧
    (after (withRegs 1 3 0xF 5) 0x81F5).readV 1 = 3 ∧
    (after (simultaneous (withRegs 1 3 0xF 5)) 0x81F5).readV 1 = 254 := by decide

/-- V74, V72, V75. -/
theorem test_shr : (after (withRegs 3 0x05 4 0x77) 0x8346).readV 3 = 0x02 ∧
    (after (withRegs 3 0x05 4 0x77) 0x8346).readV 0xF = 1 ∧ (after (withRegs 3 0x05 4 0x77) 0x8346).readV 4 = 0x77 := by decide
theorem test_shr_vf : (after (State.reset.writeV 0xF 5) 0x8F06).readV 0xF = 0 ∧
    (after (simultaneous (State.reset.writeV 0xF 5)) 0x8F06).readV 0xF = 2 := by decide

/-- V76, V77, V79, V80. -/
theorem test_subn : (after (withRegs 1 5 2 10) 0x8127).readV 1 = 5 ∧
    (after (withRegs 1 5 2 10) 0x8127).readV 0xF = 1 ∧ (after (withRegs 1 10 2 5) 0x8127).readV 1 = 251 := by decide
theorem test_subn_vf : (after (withRegs 0xF 5 1 3) 0x8F17).readV 0xF = 3 ∧
    (after (simultaneous (withRegs 0xF 5 1 3)) 0x8F17).readV 0xF = 254 ∧
    (after (withRegs 1 3 0xF 5) 0x81F7).readV 1 = 254 ∧
    (after (simultaneous (withRegs 1 3 0xF 5)) 0x81F7).readV 1 = 2 := by decide

/-- V82, V84, V85. -/
theorem test_shl : (after (State.reset.writeV 3 0x81) 0x830E).readV 3 = 0x02 ∧
    (after (State.reset.writeV 3 0x81) 0x830E).readV 0xF = 1 ∧ (after (State.reset.writeV 3 0x7F) 0x830E).readV 0xF = 0 := by decide
theorem test_shl_vf : (after (State.reset.writeV 0xF 0x85) 0x8F0E).readV 0xF = 2 ∧
    (after (simultaneous (State.reset.writeV 0xF 0x85)) 0x8F0E).readV 0xF = 0x0A := by decide

/-- V87: kk = 0 gives 0 for any random byte, and one byte is consumed. -/
theorem test_rnd_zero (s : State) : ∃ t, exec (.rnd 5 0) s = .next t ∧ t.readV 5 = 0 ∧ t.rndCount = s.rndCount + 1 :=
  ⟨_, rfl, by simp [State.readV, State.writeV], rfl⟩

/-- V100, V101, V103. -/
theorem test_ld_i : (after State.reset 0xA123).i = 0x123 := by decide
theorem test_add_i : (after (State.writeV { State.reset with i := 0x300 } 0 0x20) 0xF01E).i = 0x320 ∧
    (after (State.writeV { State.reset with i := 0xFFFF } 0 1) 0xF01E).i = 0 := by decide

/-- V104, V107. -/
theorem test_ld_f : (after (State.reset.writeV 2 0x0A) 0xF229).i = 0x82 ∧
    (after (State.reset.writeV 2 0xFF) 0xF229).i = 0x54B := by decide

/-- E5, V112. -/
theorem test_bcd : (after ((withData 0x300 []).writeV 4 157) 0xF433).loadByte 0x300 = 1 ∧
    (after ((withData 0x300 []).writeV 4 157) 0xF433).loadByte 0x301 = 5 ∧
    (after ((withData 0x300 []).writeV 4 157) 0xF433).loadByte 0x302 = 7 := by decide
theorem test_bcd_fault : (after ((withData 0xFFE []).writeV 2 1) 0xF233).fault =
    some ⟨.memoryOutOfBounds, 0x200, some 0xF233, .addr 0x1000⟩ := by decide

/-- R174's example, V116. -/
theorem test_store_regs : (after (((withData 0x400 []).writeV 0 1).writeV 2 3) 0xF255).loadByte 0x402 = 3 ∧
    (after (((withData 0x400 []).writeV 0 1).writeV 2 3) 0xF255).i = 0x400 := by decide
theorem test_store_regs_fault : (after (withData 0xFFD []) 0xF355).fault =
    some ⟨.memoryOutOfBounds, 0x200, some 0xF355, .addr 0x1000⟩ := by decide

/-- V117, V120. -/
theorem test_load_regs : (after (withData 0x300 [1, 5, 7]) 0xF265).readV 1 = 5 ∧
    (after (withData 0x300 [1, 5, 7, 9]) 0xF265).readV 3 = 0 := by decide
theorem test_load_regs_fault : (after (withData 0x1234 []) 0xF065).fault =
    some ⟨.memoryOutOfBounds, 0x200, some 0xF065, .addr 0x1234⟩ := by decide

/-- V130. -/
theorem test_cls : (after { State.reset with fb := Framebuffer.clear.toggle 5 } 0x00E0).fb.cell 5 = false := by decide

/-- E7, V134. -/
theorem test_drw_clips : (after ((withData 0x300 [0xFF]).writeV 1 60) 0xD121).fb.cell 63 = true ∧
    (after ((withData 0x300 [0xFF]).writeV 1 60) 0xD121).fb.cell 64 = false := by decide
theorem test_drw_collides :
    let t := after { withData 0x300 [0xC0, 0xC0] with fb := Framebuffer.clear.toggle 65 } 0xD122
    t.fb.cell 64 = true ∧ t.fb.cell 65 = false ∧ t.readV 0xF = 1 := by decide

/-- V150, V151, V154. -/
theorem test_skp : (after { State.reset.writeV 0 3 with key := State.reset.key.set 3 true } 0xE09E).pc = 0x204 ∧
    (after (State.reset.writeV 0 3) 0xE09E).pc = 0x202 := by decide
theorem test_skp_fault : (after (State.reset.writeV 0 16) 0xE09E).fault =
    some ⟨.keyIndexOutOfRange, 0x200, some 0xE09E, .key 16⟩ := by decide

/-- V152, V153, V155. -/
theorem test_sknp : (after { State.reset.writeV 0 3 with key := State.reset.key.set 3 true } 0xE0A1).pc = 0x202 ∧
    (after (State.reset.writeV 0 3) 0xE0A1).pc = 0x204 := by decide
theorem test_sknp_fault : (after (State.reset.writeV 0 0xFF) 0xE0A1).fault =
    some ⟨.keyIndexOutOfRange, 0x200, some 0xE0A1, .key 255⟩ := by decide

/-- V156, V157. -/
theorem test_key_wait : (after { State.reset with dt := 5 } 0xF30A).pc = 0x200 ∧
    (after { State.reset with dt := 5 } 0xF30A).dt = 4 := by decide
theorem test_key_found : (after { State.reset with key := (State.reset.key.set 9 true).set 3 true } 0xF50A).readV 5 = 3 := by decide

/-- V159, V160 to V162, V163. -/
theorem test_ld_vx_dt : (after { State.reset with dt := 9 } 0xF207).readV 2 = 9 ∧
    (after { State.reset with dt := 9 } 0xF207).dt = 8 := by decide
theorem test_ld_dt_vx : (after (State.reset.writeV 0 5) 0xF015).dt = 4 ∧
    (after { State.reset with dt := 7 } 0xF015).dt = 0 := by decide
theorem test_ld_st_vx : (after (State.reset.writeV 1 5) 0xF118).st = 4 := by decide

/-! ### Host transactions -/

/-- V171, V173, V172, V174, V177. -/
theorem test_load_program : (transact State.reset (.loadProgram [0xAB])).1.loadByte 0x200 = 0xAB := by decide
theorem test_set_key : (transact State.reset (.setKey 5)).1.keyPressed 5 = true ∧
    transact State.reset (.setKey 16) = (State.reset, .hostError .invalidKeyIndex) := ⟨by decide, rfl⟩
theorem test_clear_key : (transact State.reset (.clearKey (-1))).2 = .hostError .invalidKeyIndex := by rfl
theorem test_readout : ({ State.reset with fb := Framebuffer.clear.toggle 0 } : State).frameWords[0] = 0xFFFFFFFF ∧
    State.reset.frameWords[1] = 0 := by
  simp only [State.frameWords, Vector.getElem_ofFn]; decide
theorem test_reset : (transact { State.reset with fault := some ⟨.stackUnderflow, 0x200, some 0xEE, .none⟩ } .reset).1 = State.reset := by rfl

/-- The result column of R241. -/
theorem test_reset_returns_nothing : (transact State.reset .reset).2 = .nothing := by rfl

/-- R58: the first and the last font byte. -/
theorem test_font : State.reset.loadByte 0x50 = 0xF0 ∧ State.reset.loadByte 0x9F = 0x80 ∧ State.reset.loadByte 0xA0 = 0 := by decide

/-! ### Witnesses: a concrete case that meets the hypotheses of each statement, at the edges of their ranges -/

/-- S0 halted by a pop of an empty stack. -/
def halted : State := { State.reset with fault := some ⟨.stackUnderflow, 0x200, some 0x00EE, .none⟩ }

/-- S0 with key `k` pressed. -/
def withKey (k : Nat) : State := { State.reset with key := State.reset.key.setIfInBounds k true }

/-- S0 with a stack and a STACK_CAP. -/
def withStack (cap : Option Nat) (st : List Word) : State :=
  { State.reset with stack := st, cfg := { Config.default with stackCap := cap } }

/-- S0 with the word `w` at PC. -/
def placed (w : Nat) : State := State.reset.withFetchWord 16 w

theorem witness_DecodeOfEncodeIsIdentity :
    (Instr.cls 0).wellFormed true = true ∧ (Instr.cls 15).wellFormed false = true ∧
    (Instr.shr 15 15).wellFormed true = true := by decide

theorem witness_EncodeOfDecodeIsIdentity : decode true 0x8FF6 = .op (.shr 15 15) ∧
    decode false 0x0FEE = .op (.ret 15) := by decide

theorem witness_OpcodeMapIsUnambiguousAndComplete_matched :
    opcodeMap.all (fun r => r.covers false r.matchBits && r.covers true r.matchBits) = true := by decide

theorem witness_OpcodeMapIsUnambiguousAndComplete_unmatched : opcodeMap.all (fun r => !r.covers false 0xFFFF) = true ∧
    opcodeMap.all (fun r => !r.covers true 0x01E0) = true := by decide

/-- The hypothesis of `RowDecodes`, met under both masks of every row: the only hypothesis of JumpSetsPc,
JumpWithOffsetAddsV0, ImmediateSkips, RegisterSkips, RegisterLoads, AddImmediateWrapsWithoutFlag,
LogicOperationsAreBitwise, IndexLoad, IndexAddWraps, IndexPointsAtGlyph and ClearTurnsEveryCellOff. -/
theorem witness_RowDecodes :
    opcodeMap.all (fun r => r.matchBits &&& r.mask == r.matchBits && r.matchBits &&& r.maskStrict == r.matchBits) = true := by
  decide

theorem witness_UndefinedWordsAreNops : State.reset.fault = none ∧ State.reset.pc.toNat < 4095 ∧
    decode State.reset.cfg.strictDecode State.reset.fetchWord = .nop := by decide

theorem witness_FetchIsBigEndianAndBounded_fault : ({ State.reset with pc := 4095 } : State).fault = none ∧
    4095 ≤ ({ State.reset with pc := 4095 } : State).pc.toNat := by decide

theorem witness_FetchIsBigEndianAndBounded_inBounds : ({ State.reset with pc := 4094 } : State).fault = none ∧
    ({ State.reset with pc := 4094 } : State).pc.toNat < 4095 := by decide

theorem witness_StepRunsTheDecodedInstruction : (placed 0x6A9D).fault = none ∧ (placed 0x6A9D).pc.toNat < 4095 ∧
    decode (placed 0x6A9D).cfg.strictDecode (placed 0x6A9D).fetchWord = .op (.ldImm 0xA 0x9D) ∧
    ∃ t, exec (.ldImm 0xA 0x9D) { placed 0x6A9D with pc := (placed 0x6A9D).pc + 2 } = .next t :=
  ⟨by decide, by decide, by decide, _, rfl⟩

theorem witness_EncodedInstructionRuns :
    (placed 0x6A9D).fault = none ∧ (placed 0x6A9D).pc.toNat < 4095 ∧
    (Instr.ldImm 0xA 0x9D).wellFormed (placed 0x6A9D).cfg.strictDecode = true ∧
    (placed 0x6A9D).loadByte (placed 0x6A9D).pc.toNat = highByte (encode (.ldImm 0xA 0x9D)) ∧
    (placed 0x6A9D).loadByte ((placed 0x6A9D).pc.toNat + 1) = lowByte (encode (.ldImm 0xA 0x9D)) := by decide

theorem witness_PlacedWordRuns : 0xFFFF < 65536 ∧ ({ State.reset with pc := 4094 } : State).fault = none ∧
    ({ State.reset with pc := 4094 } : State).pc.toNat < 4095 := by decide

theorem witness_TimersTickAfterTheOperation : (placed 0xF015).fault = none ∧ (placed 0xF015).pc.toNat < 4095 ∧
    ∃ u, executeOperation (decode (placed 0xF015).cfg.strictDecode (placed 0xF015).fetchWord) (placed 0xF015).advance = .next u ∧
      u.fault = none := ⟨by decide, by decide, _, rfl, by decide⟩

theorem witness_HaltedMachineStaysHalted :
    halted.fault = some ⟨.stackUnderflow, 0x200, some 0x00EE, .none⟩ ∧ Transaction.setKey 3 ≠ .reset := by decide

theorem witness_StepStopsExactlyWhenHalted : halted.fault = some ⟨.stackUnderflow, 0x200, some 0x00EE, .none⟩ ∧
    step halted = .fault (.halted ⟨.stackUnderflow, 0x200, some 0x00EE, .none⟩) := ⟨by decide, rfl⟩

theorem witness_FaultsArePreciseAndTerminal_execute : (placed 0x00EE).fault = none ∧
    ∃ t, step (placed 0x00EE) = .next t ∧ t.fault = some ⟨.stackUnderflow, 0x200, some 0x00EE, .none⟩ :=
  ⟨by decide, _, rfl, by decide⟩

theorem witness_FaultsArePreciseAndTerminal_fetch : ({ State.reset with pc := 4095 } : State).fault = none ∧
    ∃ t, step { State.reset with pc := 4095 } = .next t ∧ t.fault = some ⟨.fetchOutOfBounds, 4095, none, .none⟩ :=
  ⟨by decide, _, rfl, by decide⟩

theorem witness_CyclesFaultExactlyAsListed : State.reset.fault = none := by decide

theorem witness_ReturnPopsTheStack : (withStack none [0x202, 0x300]).stack = 0x202 :: [0x300] ∧ State.reset.stack = [] := by
  decide

theorem witness_CallPushesReturnAddress_room : State.reset.cfg.stackCap ≠ some State.reset.stack.length ∧
    (withStack (some 2) [0x202]).cfg.stackCap ≠ some (withStack (some 2) [0x202]).stack.length := by decide

theorem witness_CallPushesReturnAddress_full :
    (withStack (some 2) [0x202, 0x300]).cfg.stackCap = some (withStack (some 2) [0x202, 0x300]).stack.length := by decide

theorem witness_FlagOrdersAgreeAwayFromVf : (1 : Nibble) ≠ VF ∧ (0xE : Nibble) ≠ VF ∧
    Instr.shl 1 0xE ∈ [Instr.subReg 1 0xE, Instr.shr 1 0xE, Instr.subnReg 1 0xE, Instr.shl 1 0xE] := by decide

/-- Both flag orders and operands of every kind, for SubtractSetsGreaterFlag, ReverseSubtractSetsGreaterFlag,
ShiftRightDropsBitIntoVf, ShiftLeftDropsBitIntoVf and AddWritesSumThenCarry (and kk = 0 for RandomLoadMasksOneByte). -/
theorem witness_flag_orders : (simultaneous State.reset).cfg.aluFlagOrder = .simultaneous ∧
    State.reset.cfg.aluFlagOrder = .sequential ∧ (3 : Nibble) ≠ VF ∧ (0 : Byte) = 0 := by decide

theorem witness_BcdStoresThreeDigits : (withData 4093 []).i.toNat + 2 < 4096 ∧ 4096 ≤ (withData 4094 []).i.toNat + 2 := by
  decide

theorem witness_RegisterBlockStore : (withData 4080 []).i.toNat + (15 : Nibble).toNat < 4096 ∧
    4096 ≤ (withData 4081 []).i.toNat + (15 : Nibble).toNat ∧ (15 : Nibble).toNat ≤ (15 : Nibble).toNat := by decide

theorem witness_RegisterBlockLoad : (withData 4095 []).i.toNat + (0 : Nibble).toNat < 4096 ∧
    4096 ≤ (withData 4095 []).i.toNat + (1 : Nibble).toNat ∧ (0 : Nibble).toNat ≤ (0 : Nibble).toNat ∧
    (0 : Nibble).toNat < (1 : Nibble).toNat := by decide

theorem witness_EveryOperationAnswersAState : State.reset.fault = none := by decide

theorem witness_StoredRegistersAreFetched :
    (withData 4094 []).i.toNat + (1 : Nibble).toNat < 4096 ∧ (0 : Nibble).toNat < (1 : Nibble).toNat ∧
    ∃ t, exec (.ldMemVx 1) (withData 4094 []) = .next t ∧ ∃ u : State, u.mem = t.mem ∧ u.cfg = t.cfg ∧
      u.pc.toNat = (withData 4094 []).i.toNat + (0 : Nibble).toNat :=
  ⟨by decide, by decide, _, rfl, { withData 4094 [] with pc := 4094 }, by decide, by decide, by decide⟩

theorem witness_DrawXorsTheSprite_inRange : (0 : Nibble) = 0 ∧
    (withData 4095 [0x80]).i.toNat + min (1 : Nibble).toNat (32 - ((withData 4095 [0x80]).readV 1).toNat % 32) ≤ 4096 := by
  decide

theorem witness_DrawXorsTheSprite_outOfRange : (2 : Nibble) ≠ 0 ∧
    4096 < (withData 4095 [0x80]).i.toNat + min (2 : Nibble).toNat (32 - ((withData 4095 [0x80]).readV 1).toNat % 32) := by
  decide

theorem witness_DrawXorsTheSprite_collision :
    spriteCovers 0 1 1 { withData 4095 [0x80] with fb := Framebuffer.clear.toggle 0 } 0 = true ∧
    ({ withData 4095 [0x80] with fb := Framebuffer.clear.toggle 0 } : State).fb.cell 0 = true := by decide

theorem witness_DrawXorsTheSprite_noCollision :
    ∀ idx, idx < 2048 → spriteCovers 0 1 1 (withData 4095 [0x80]) idx = true → (withData 4095 [0x80]).fb.cell idx = false :=
  fun idx _ _ => by
    have h : (withData 4095 [0x80]).fb = Framebuffer.clear := by decide
    rw [h, Framebuffer.cell_clear]

theorem witness_DrawTwiceRestoresTheDisplay : (0 : Nibble) ≠ VF ∧ (1 : Nibble) ≠ VF ∧
    (withData 4095 [0x80]).i.toNat + min (1 : Nibble).toNat (32 - ((withData 4095 [0x80]).readV 1).toNat % 32) ≤ 4096 ∧
    ∃ t u, exec (.drw 0 1 1) (withData 4095 [0x80]) = .next t ∧ exec (.drw 0 1 1) t = .next u :=
  ⟨by decide, by decide, by decide, _, _, rfl, rfl⟩

theorem witness_KeySkips : ((State.reset.writeV 3 15).readV 3).toNat ≤ 15 ∧ 15 < ((State.reset.writeV 3 16).readV 3).toNat := by
  decide

theorem witness_KeyWaitPollsTheLowestKey_none : (∀ k, k < 16 → (placed 0xFF0A).keyPressed k = false) ∧
    (placed 0xFF0A).fault = none ∧ (placed 0xFF0A).pc.toNat < 4095 ∧
    decode (placed 0xFF0A).cfg.strictDecode (placed 0xFF0A).fetchWord = .op (.ldVxK 15) := by decide

theorem witness_KeyWaitPollsTheLowestKey_some : 15 < 16 ∧ (withKey 15).keyPressed 15 = true ∧
    (∀ j, j < 15 → (withKey 15).keyPressed j = false) ∧ (withKey 0).keyPressed 0 = true := by decide

theorem witness_DelayTimerIsReadBeforeTheTick : (placed 0xFF07).fault = none ∧ (placed 0xFF07).pc.toNat < 4095 ∧
    decode (placed 0xFF07).cfg.strictDecode (placed 0xFF07).fetchWord = .op (.ldVxDt 15) := by decide

theorem witness_TimersAreSetThenTick :
    decode (placed 0xF015).cfg.strictDecode (placed 0xF015).fetchWord = .op (.ldDtVx 0) ∧
    decode (placed 0xFF18).cfg.strictDecode (placed 0xFF18).fetchWord = .op (.ldStVx 15) ∧
    (placed 0xF015).fault = none ∧ (placed 0xF015).pc.toNat < 4095 ∧
    (placed 0xFF18).fault = none ∧ (placed 0xFF18).pc.toNat < 4095 := by decide

theorem witness_LoadProgramCopiesOrRejects :
    (List.replicate 3584 (0xAB : Byte)).length ≤ 3584 ∧ 3584 < (List.replicate 3585 (0xAB : Byte)).length := by
  simp only [List.length_replicate]; omega

theorem witness_KeyTransactionsSetOneKey : ((0 : Int) ≤ 0 ∧ (0 : Int) ≤ 15) ∧ ((0 : Int) ≤ 15 ∧ (15 : Int) ≤ 15) ∧
    ((-1 : Int) < 0 ∨ (15 : Int) < -1) ∧ ((16 : Int) < 0 ∨ (15 : Int) < 16) := by decide

theorem witness_ResetGivesTheBaseline :
    State.reset = (transact halted .reset).1 ∧ State.reset = State.resetWith halted.cfg := ⟨rfl, rfl⟩

theorem witness_FaultedMachineServesTheHost :
    halted.fault = some ⟨.stackUnderflow, 0x200, some 0x00EE, .none⟩ ∧
    Transaction.readout ≠ .cycle ∧ Transaction.readout ≠ .reset := by decide

theorem witness_ResetMeetsTheInvariant : Config.default.wf = true ∧ ({ Config.default with stackCap := some 1 } : Config).wf = true := by
  decide

/-- Memory, stack and PC away from their reset values, and a step that answers a state. -/
theorem witness_StepKeepsTheInvariant :
    ({ placed 0x00EE with stack := [4096], pc := 0x200 } : State).Inv ∧
    ∃ t, step { placed 0x00EE with stack := [4096], pc := 0x200 } = .next t :=
  ⟨⟨by decide, by decide, by decide, by decide, fun w h => by cases List.mem_singleton.mp h; decide, by decide⟩, _, rfl⟩

theorem witness_SessionsKeepTheInvariant : (halted : State).Inv :=
  ⟨by decide, by decide, by decide, by decide, fun _ h => (nomatch h), by decide⟩

theorem witness_OperationsWriteOnlyTheirElements : State.reset.fault = none ∧
    ∃ t, exec (.ldMemVx 3) (withData 0x300 []) = .next t ∧ t.fault = none := ⟨by decide, _, rfl, by decide⟩

theorem witness_OperationsWriteOnlyTheirRegisters : (∃ t, exec (.drw 0 1 5) State.reset = .next t) ∧
    (Instr.drw 0 1 5).writesReg 0 = false := ⟨⟨_, rfl⟩, by decide⟩

theorem witness_UnreadRegistersHaveNoInfluence : (Instr.ldVxMem 3).readsReg 4 = false ∧
    (Instr.ldVxMem 3).writesReg 4 = false ∧ ∃ t, exec (.ldVxMem 3) State.reset = .next t := ⟨by decide, by decide, _, rfl⟩

theorem witness_CycleTransactionReportsTheFault :
    State.reset.fault = none ∧ (∃ t, step State.reset = .next t ∧ t.fault = none) ∧
    (placed 0x00EE).fault = none ∧
    ∃ t, step (placed 0x00EE) = .next t ∧ t.fault = some ⟨.stackUnderflow, 0x200, some 0x00EE, .none⟩ :=
  ⟨by decide, ⟨_, rfl, by decide⟩, by decide, _, rfl, by decide⟩

end Sys2Proof.Tests
end

section
/-! SUPPORT. The opcode map against the decoder (R71, R76, R78): which fields a row's mask fixes, that every row decodes
to its own operation, and that every word that decodes to an operation lies in a row. -/

namespace Sys2Proof

/-! ### The fields as numbers (R71) -/

section
variable (w : Word)

theorem opX_toNat : (opX w).toNat = w.toNat / 256 % 16 := by
  simp [opX, Nat.shiftRight_eq_div_pow]

theorem opY_toNat : (opY w).toNat = w.toNat / 16 % 16 := by
  simp [opY, Nat.shiftRight_eq_div_pow]

theorem opKK_toNat : (opKK w).toNat = w.toNat % 256 := by
  simp [opKK]

theorem opNNN_toNat : (opNNN w).toNat = w.toNat % 4096 := by
  simp [opNNN]

theorem opN_toNat : (opN w).toNat = w.toNat % 16 := by
  simp [opN]

/-- The family is the top nibble, so nothing is left above it to cut off. -/
theorem opFamily_toNat : (opFamily w).toNat = w.toNat / 4096 := by
  have hw : w.toNat < 2 ^ 16 := w.isLt
  simp only [opFamily, BitVec.extractLsb'_toNat, Nat.shiftRight_eq_div_pow]
  omega

end

/-- Settles O1: each field is the slice its bits name, and the family needs no `mod` since a word has 16 bits. -/
theorem opcodeFieldsAreBitSlices : Obligations.OpcodeFieldsAreBitSlices := fun w =>
  ⟨opX_toNat w, opY_toNat w, opKK_toNat w, opNNN_toNat w, opN_toNat w, opFamily_toNat w⟩

/-! ### What each mask of R76 fixes -/

section
variable {strict : Bool} {w : Word} {f x y n f' x' y' n' : Nibble} {kk kk' : Byte}

theorem encodeRegByte_inj :
    encodeRegByte f x kk = encodeRegByte f' x' kk' ↔ f = f' ∧ x = x' ∧ kk = kk' := by
  refine ⟨fun h => ⟨?_, ?_, ?_⟩, by rintro ⟨rfl, rfl, rfl⟩; rfl⟩
  · simpa only [opFamily_encodeRegByte] using congrArg opFamily h
  · simpa only [opX_encodeRegByte] using congrArg opX h
  · simpa only [opKK_encodeRegByte] using congrArg opKK h

theorem encodeRegReg_inj :
    encodeRegReg f x y n = encodeRegReg f' x' y' n' ↔ f = f' ∧ x = x' ∧ y = y' ∧ n = n' := by
  refine ⟨fun h => ⟨?_, ?_, ?_, ?_⟩, by rintro ⟨rfl, rfl, rfl, rfl⟩; rfl⟩
  · simpa only [opFamily_encodeRegReg] using congrArg opFamily h
  · simpa only [opX_encodeRegReg] using congrArg opX h
  · simpa only [opY_encodeRegReg] using congrArg opY h
  · simpa only [opN_encodeRegReg] using congrArg opN h

/-- Mask F000: the family. -/
theorem mask_family_iff (f : Nibble) : w &&& 0xF000 = encodeRegReg f 0 0 0 ↔ opFamily w = f := by
  conv_lhs => rw [← encodeRegReg_fields w, encodeRegReg_mask_family, encodeRegReg_inj]
  simp

/-- Mask F00F: the family and the low nibble. -/
theorem mask_nibble_iff (f n : Nibble) :
    w &&& 0xF00F = encodeRegReg f 0 0 n ↔ opFamily w = f ∧ opN w = n := by
  conv_lhs => rw [← encodeRegReg_fields w, encodeRegReg_mask_nibble, encodeRegReg_inj]
  simp

/-- Mask F0FF: the family and the low byte. -/
theorem mask_byte_iff (f : Nibble) (kk : Byte) :
    w &&& 0xF0FF = encodeRegByte f 0 kk ↔ opFamily w = f ∧ opKK w = kk := by
  conv_lhs => rw [← encodeRegByte_fields w, encodeRegByte_mask_byte, encodeRegByte_inj]
  simp

/-- Mask FFFF: the whole word. -/
theorem mask_word_iff (f : Nibble) (kk : Byte) :
    w &&& 0xFFFF = encodeRegByte f 0 kk ↔ opFamily w = f ∧ opX w = 0 ∧ opKK w = kk := by
  rw [show w &&& 0xFFFF = w from BitVec.and_allOnes]
  conv_lhs => rw [← encodeRegByte_fields w, encodeRegByte_inj]

/-- The masks of 5xy0 and 9xy0: the family, and the low nibble that STRICT_DECODE looks at. -/
theorem mask_familyUnused_iff (f : Nibble) :
    w &&& (if strict then 0xF00F else 0xF000) = encodeRegReg f 0 0 0 ↔
      opFamily w = f ∧ unusedNibbleOk strict (opN w) = true := by
  cases strict
  · simpa [unusedNibbleOk] using mask_family_iff f
  · simpa [unusedNibbleOk] using mask_nibble_iff f 0

/-- The masks of 00E0 and 00EE: the family, the low byte, and the nibble that STRICT_DECODE looks at. -/
theorem mask_byteUnused_iff (f : Nibble) (kk : Byte) :
    w &&& (if strict then 0xFFFF else 0xF0FF) = encodeRegByte f 0 kk ↔
      opFamily w = f ∧ opKK w = kk ∧ unusedNibbleOk strict (opX w) = true := by
  cases strict
  · simpa [unusedNibbleOk] using mask_byte_iff f kk
  · simpa [unusedNibbleOk, and_comm] using mask_word_iff f kk

/-- A row covers a word exactly when the word matches under the mask in force (R76). -/
theorem OpcodeRow.covers_iff {r : OpcodeRow} :
    r.covers strict w = true ↔ w &&& (if strict then r.maskStrict else r.mask) = r.matchBits := beq_iff_eq

end

/-! ### Every row decodes to its own operation -/

section
variable {make : Word → Instr}

theorem RowDecodes.of_family (f : Nibble)
    (h : ∀ strict w, opFamily w = f → decode strict w = .op (make w)) :
    RowDecodes (encodeRegReg f 0 0 0) 0xF000 0xF000 make := fun strict w hw =>
  h strict w ((mask_family_iff f).mp (by simpa only [ite_self] using hw))

theorem RowDecodes.of_nibble (f n : Nibble)
    (h : ∀ strict w, opFamily w = f → opN w = n → decode strict w = .op (make w)) :
    RowDecodes (encodeRegReg f 0 0 n) 0xF00F 0xF00F make := fun strict w hw =>
  (mask_nibble_iff f n).mp (by simpa only [ite_self] using hw) |>.elim (h strict w)

theorem RowDecodes.of_byte (f : Nibble) (kk : Byte)
    (h : ∀ strict w, opFamily w = f → opKK w = kk → decode strict w = .op (make w)) :
    RowDecodes (encodeRegByte f 0 kk) 0xF0FF 0xF0FF make := fun strict w hw =>
  (mask_byte_iff f kk).mp (by simpa only [ite_self] using hw) |>.elim (h strict w)

theorem RowDecodes.of_familyUnused (f : Nibble)
    (h : ∀ strict w, opFamily w = f → unusedNibbleOk strict (opN w) = true → decode strict w = .op (make w)) :
    RowDecodes (encodeRegReg f 0 0 0) 0xF000 0xF00F make := fun strict w hw =>
  (mask_familyUnused_iff f).mp hw |>.elim (h strict w)

theorem RowDecodes.of_byteUnused (f : Nibble) (kk : Byte)
    (h : ∀ strict w, opFamily w = f → opKK w = kk → unusedNibbleOk strict (opX w) = true →
      decode strict w = .op (make w)) :
    RowDecodes (encodeRegByte f 0 kk) 0xF0FF 0xFFFF make := fun strict w hw =>
  have ⟨hf, hk, hu⟩ := (mask_byteUnused_iff f kk).mp hw
  h strict w hf hk hu

end

/-- What the map says of one of its rows. -/
def OpcodeRow.Decodes (r : OpcodeRow) : Prop := RowDecodes r.matchBits r.mask r.maskStrict r.make

theorem opcodeMapLow_decodes : ∀ r ∈ opcodeMapLow, r.Decodes := by
  simp only [opcodeMapLow, List.forall_mem_cons, OpcodeRow.Decodes]
  refine ⟨.of_byteUnused 0x0 0xE0 ?_, .of_byteUnused 0x0 0xEE ?_, .of_family 0x1 ?_, .of_family 0x2 ?_,
    .of_family 0x3 ?_, .of_family 0x4 ?_, .of_familyUnused 0x5 ?_, .of_family 0x6 ?_, .of_family 0x7 ?_, by simp⟩
  all_goals simp +contextual [decode, decodeFamily0, opIfUnusedOk]

theorem opcodeMapAlu_decodes : ∀ r ∈ opcodeMapAlu, r.Decodes := by
  simp only [opcodeMapAlu, List.forall_mem_cons, OpcodeRow.Decodes]
  refine ⟨.of_nibble 0x8 0x0 ?_, .of_nibble 0x8 0x1 ?_, .of_nibble 0x8 0x2 ?_, .of_nibble 0x8 0x3 ?_,
    .of_nibble 0x8 0x4 ?_, .of_nibble 0x8 0x5 ?_, .of_nibble 0x8 0x6 ?_, .of_nibble 0x8 0x7 ?_,
    .of_nibble 0x8 0xE ?_, by simp⟩
  all_goals simp +contextual [decode, decodeFamily8]

theorem opcodeMapMid_decodes : ∀ r ∈ opcodeMapMid, r.Decodes := by
  simp only [opcodeMapMid, List.forall_mem_cons, OpcodeRow.Decodes]
  refine ⟨.of_familyUnused 0x9 ?_, .of_family 0xA ?_, .of_family 0xB ?_, .of_family 0xC ?_, .of_family 0xD ?_,
    .of_byte 0xE 0x9E ?_, .of_byte 0xE 0xA1 ?_, by simp⟩
  all_goals simp +contextual [decode, decodeFamilyE, opIfUnusedOk]

theorem opcodeMapHigh_decodes : ∀ r ∈ opcodeMapHigh, r.Decodes := by
  simp only [opcodeMapHigh, List.forall_mem_cons, OpcodeRow.Decodes]
  refine ⟨.of_byte 0xF 0x07 ?_, .of_byte 0xF 0x0A ?_, .of_byte 0xF 0x15 ?_, .of_byte 0xF 0x18 ?_,
    .of_byte 0xF 0x1E ?_, .of_byte 0xF 0x29 ?_, .of_byte 0xF 0x33 ?_, .of_byte 0xF 0x55 ?_,
    .of_byte 0xF 0x65 ?_, by simp⟩
  all_goals simp +contextual [decode, decodeFamilyF]

/-- Every row of R76 decodes to its operation, with the operands read from the word. -/
theorem opcodeMap_decodes : ∀ r ∈ opcodeMap, r.Decodes := by
  simp only [opcodeMap, List.forall_mem_append]
  exact ⟨⟨⟨opcodeMapLow_decodes, opcodeMapAlu_decodes⟩, opcodeMapMid_decodes⟩, opcodeMapHigh_decodes⟩

/-- The same by the row's number, as a rule's own encoding clause needs it. -/
theorem rowDecodes_of_getElem? {k : Nat} {r : OpcodeRow} (h : opcodeMap[k]? = some r) :
    RowDecodes r.matchBits r.mask r.maskStrict r.make :=
  opcodeMap_decodes r (List.mem_of_getElem? h)

/-! ### The rows are told apart by the operation they give -/

/-- Row `k` makes the instructions whose row is `k`, from every word. -/
theorem opcodeMap_rows (w : Word) :
    opcodeMap.map (fun r => Laws.WordInRow.row (r.make w)) = List.range 34 := rfl

theorem row_make {k : Nat} {r : OpcodeRow} (h : opcodeMap[k]? = some r) (w : Word) :
    Laws.WordInRow.row (r.make w) = k := by
  have hk : (List.range 34)[k]? = some (Laws.WordInRow.row (r.make w)) := by
    rw [← opcodeMap_rows w, List.getElem?_map, h, Option.map_some]
  simpa using (List.getElem_of_getElem? hk).2.symm

/-- Two rows that cover one word are one row, because the decoder gives that word one operation. -/
theorem covers_unique {strict : Bool} {w : Word} {j k : Nat} {r q : OpcodeRow}
    (hr : opcodeMap[j]? = some r) (hq : opcodeMap[k]? = some q)
    (cr : r.covers strict w = true) (cq : q.covers strict w = true) : j = k := by
  have hop : decode strict w = .op (r.make w) := rowDecodes_of_getElem? hr strict w (OpcodeRow.covers_iff.mp cr)
  have hoq : decode strict w = .op (q.make w) := rowDecodes_of_getElem? hq strict w (OpcodeRow.covers_iff.mp cq)
  have hmake : r.make w = q.make w := Operation.op.inj (hop.symm.trans hoq)
  rw [← row_make hr w, ← row_make hq w, hmake]

/-! ### Every operation the decoder gives comes from a row -/

/-- A word some row of the map covers. -/
def Covered (strict : Bool) (w : Word) : Prop := ∃ r ∈ opcodeMap, r.covers strict w = true

section
variable {strict : Bool} {w : Word} {i : Instr} {r : OpcodeRow} {p o : String} {make : Word → Instr}

theorem Covered.of_row (k : Nat) (hr : opcodeMap[k]? = some r)
    (hw : w &&& (if strict then r.maskStrict else r.mask) = r.matchBits) : Covered strict w :=
  ⟨r, List.mem_of_getElem? hr, OpcodeRow.covers_iff.mpr hw⟩

theorem Covered.of_family (k : Nat) (f : Nibble)
    (hr : opcodeMap[k]? = some ⟨p, o, encodeRegReg f 0 0 0, 0xF000, 0xF000, make⟩)
    (hf : (opFamily w).toNat = f.toNat) : Covered strict w :=
  .of_row k hr (by simpa only [ite_self] using (mask_family_iff f).mpr (BitVec.eq_of_toNat_eq hf))

theorem Covered.of_nibble (k : Nat) (f n : Nibble)
    (hr : opcodeMap[k]? = some ⟨p, o, encodeRegReg f 0 0 n, 0xF00F, 0xF00F, make⟩)
    (hf : opFamily w = f) (hn : (opN w).toNat = n.toNat) : Covered strict w :=
  .of_row k hr (by simpa only [ite_self] using (mask_nibble_iff f n).mpr ⟨hf, BitVec.eq_of_toNat_eq hn⟩)

theorem Covered.of_byte (k : Nat) (f : Nibble) (kk : Byte)
    (hr : opcodeMap[k]? = some ⟨p, o, encodeRegByte f 0 kk, 0xF0FF, 0xF0FF, make⟩)
    (hf : opFamily w = f) (hk : (opKK w).toNat = kk.toNat) : Covered strict w :=
  .of_row k hr (by simpa only [ite_self] using (mask_byte_iff f kk).mpr ⟨hf, BitVec.eq_of_toNat_eq hk⟩)

theorem unusedNibbleOk_of_opIfUnusedOk {u : Nibble} {i' : Instr} (h : opIfUnusedOk strict u i' = .op i) :
    unusedNibbleOk strict u = true := by
  by_contra hu
  simp [opIfUnusedOk, hu] at h

theorem Covered.of_familyUnused (k : Nat) (f : Nibble) {i' : Instr}
    (hr : opcodeMap[k]? = some ⟨p, o, encodeRegReg f 0 0 0, 0xF000, 0xF00F, make⟩)
    (hf : (opFamily w).toNat = f.toNat) (h : opIfUnusedOk strict (opN w) i' = .op i) : Covered strict w :=
  .of_row k hr ((mask_familyUnused_iff f).mpr ⟨BitVec.eq_of_toNat_eq hf, unusedNibbleOk_of_opIfUnusedOk h⟩)

theorem Covered.of_byteUnused (k : Nat) (f : Nibble) (kk : Byte) {i' : Instr}
    (hr : opcodeMap[k]? = some ⟨p, o, encodeRegByte f 0 kk, 0xF0FF, 0xFFFF, make⟩)
    (hf : opFamily w = f) (hk : (opKK w).toNat = kk.toNat) (h : opIfUnusedOk strict (opX w) i' = .op i) :
    Covered strict w :=
  .of_row k hr ((mask_byteUnused_iff f kk).mpr ⟨hf, BitVec.eq_of_toNat_eq hk, unusedNibbleOk_of_opIfUnusedOk h⟩)

theorem covered_of_decodeFamily0 (hf : opFamily w = 0x0) (h : decodeFamily0 strict w = .op i) : Covered strict w := by
  unfold decodeFamily0 at h
  split at h
  case h_1 hk => exact .of_byteUnused 0 0x0 0xE0 rfl hf hk h
  case h_2 hk => exact .of_byteUnused 1 0x0 0xEE rfl hf hk h
  case h_3 => exact nomatch h

theorem covered_of_decodeFamily8 (hf : opFamily w = 0x8) (h : decodeFamily8 w = .op i) : Covered strict w := by
  unfold decodeFamily8 at h
  split at h
  case h_1 hn => exact .of_nibble 9 0x8 0x0 rfl hf hn
  case h_2 hn => exact .of_nibble 10 0x8 0x1 rfl hf hn
  case h_3 hn => exact .of_nibble 11 0x8 0x2 rfl hf hn
  case h_4 hn => exact .of_nibble 12 0x8 0x3 rfl hf hn
  case h_5 hn => exact .of_nibble 13 0x8 0x4 rfl hf hn
  case h_6 hn => exact .of_nibble 14 0x8 0x5 rfl hf hn
  case h_7 hn => exact .of_nibble 15 0x8 0x6 rfl hf hn
  case h_8 hn => exact .of_nibble 16 0x8 0x7 rfl hf hn
  case h_9 hn => exact .of_nibble 17 0x8 0xE rfl hf hn
  case h_10 => exact nomatch h

theorem covered_of_decodeFamilyE (hf : opFamily w = 0xE) (h : decodeFamilyE w = .op i) : Covered strict w := by
  unfold decodeFamilyE at h
  split at h
  case h_1 hk => exact .of_byte 23 0xE 0x9E rfl hf hk
  case h_2 hk => exact .of_byte 24 0xE 0xA1 rfl hf hk
  case h_3 => exact nomatch h

theorem covered_of_decodeFamilyF (hf : opFamily w = 0xF) (h : decodeFamilyF w = .op i) : Covered strict w := by
  unfold decodeFamilyF at h
  split at h
  case h_1 hk => exact .of_byte 25 0xF 0x07 rfl hf hk
  case h_2 hk => exact .of_byte 26 0xF 0x0A rfl hf hk
  case h_3 hk => exact .of_byte 27 0xF 0x15 rfl hf hk
  case h_4 hk => exact .of_byte 28 0xF 0x18 rfl hf hk
  case h_5 hk => exact .of_byte 29 0xF 0x1E rfl hf hk
  case h_6 hk => exact .of_byte 30 0xF 0x29 rfl hf hk
  case h_7 hk => exact .of_byte 31 0xF 0x33 rfl hf hk
  case h_8 hk => exact .of_byte 32 0xF 0x55 rfl hf hk
  case h_9 hk => exact .of_byte 33 0xF 0x65 rfl hf hk
  case h_10 => exact nomatch h

/-- The default branch of `decode` is family 0xF: a nibble that is none of the other fifteen values. -/
theorem opFamily_eq_F (h : ∀ k, k < 15 → (opFamily w).toNat ≠ k) : opFamily w = 0xF := by
  have hlt : (opFamily w).toNat < 16 := (opFamily w).isLt
  have hge : 15 ≤ (opFamily w).toNat := Nat.le_of_not_lt fun hk => h _ hk rfl
  exact BitVec.eq_of_toNat_eq (by change _ = 15; omega)

/-- A word that decodes to an operation lies in a row, family by family. -/
theorem covered_of_decode (h : decode strict w = .op i) : Covered strict w := by
  unfold decode at h
  split at h
  case h_1 hf => exact covered_of_decodeFamily0 (BitVec.eq_of_toNat_eq hf) h
  case h_2 hf => exact .of_family 2 0x1 rfl hf
  case h_3 hf => exact .of_family 3 0x2 rfl hf
  case h_4 hf => exact .of_family 4 0x3 rfl hf
  case h_5 hf => exact .of_family 5 0x4 rfl hf
  case h_6 hf => exact .of_familyUnused 6 0x5 rfl hf h
  case h_7 hf => exact .of_family 7 0x6 rfl hf
  case h_8 hf => exact .of_family 8 0x7 rfl hf
  case h_9 hf => exact covered_of_decodeFamily8 (BitVec.eq_of_toNat_eq hf) h
  case h_10 hf => exact .of_familyUnused 18 0x9 rfl hf h
  case h_11 hf => exact .of_family 19 0xA rfl hf
  case h_12 hf => exact .of_family 20 0xB rfl hf
  case h_13 hf => exact .of_family 21 0xC rfl hf
  case h_14 hf => exact .of_family 22 0xD rfl hf
  case h_15 hf => exact covered_of_decodeFamilyE (BitVec.eq_of_toNat_eq hf) h
  case h_16 =>
    refine covered_of_decodeFamilyF (opFamily_eq_F fun k hk => ?_) h
    interval_cases k <;> assumption

/-- R78: a word that no row covers is `NOP`. -/
theorem decode_eq_nop_of_uncovered (h : ∀ r ∈ opcodeMap, r.covers strict w = false) : decode strict w = .nop := by
  cases hd : decode strict w with
  | nop => rfl
  | op i =>
    obtain ⟨r, hr, hc⟩ := covered_of_decode hd
    exact absurd hc (by simp [h r hr])

end

/-- Settles O5. Two rows cannot cover one word because the decoder answers each with its own operation; a word outside
the map is `NOP` because each branch of the decoder that answers an operation is a row. -/
theorem opcodeMapIsUnambiguousAndComplete : Obligations.OpcodeMapIsUnambiguousAndComplete :=
  ⟨rfl, fun strict w =>
    ⟨fun _ _ _ _ hr hq => covers_unique hr hq,
     fun r hr hc => opcodeMap_decodes r hr strict w (OpcodeRow.covers_iff.mp hc),
     decode_eq_nop_of_uncovered⟩⟩

end Sys2Proof
end

section
/-! SUPPORT. The cycle's fetch, its timer tick, and the machine that a latched fault has halted (R101, R105, R107). -/

namespace Sys2Proof.Machine

/-! ### Fetch (R52, R101) -/

/-- R52: the byte at PC is the high one of the fetched word. -/
theorem State.fetchWord_toNat (s : State) :
    s.fetchWord.toNat = (s.loadByte s.pc.toNat).toNat * 256 + (s.loadByte (s.pc.toNat + 1)).toNat :=
  wordOfBytes_toNat _ _

/-- Settles O7: the two branches of the fetch, the second with the fetched word as the opcode. -/
theorem fetchIsBigEndianAndBounded : Obligations.FetchIsBigEndianAndBounded := fun s hf =>
  ⟨step_fetch_fault hf, fun hp => ⟨s.fetchWord, s.fetchWord_toNat, step_run hf hp⟩⟩

/-! ### Timer tick (R105) -/

theorem tickTimer_toNat (t : Byte) : (tickTimer t).toNat = t.toNat - 1 := by
  unfold tickTimer
  split
  · next h => exact BitVec.toNat_sub_of_le (y := 1) h
  · next h => omega

theorem State.tick_onlyChanges (s : State) : OnlyChanges [.dt, .st] s s.tick := fun e he => by
  cases e with
  | dt | st => simp at he
  | _ => simp [Element.kept]

/-- An operation that latches no fault ends its cycle with the tick. -/
theorem step_eq_tick {s u : State} (hf : s.fault = none) (hp : s.pc.toNat < 4095)
    (hu : executeOperation (decode s.cfg.strictDecode s.fetchWord) s.advance = .next u) (huf : u.fault = none) :
    step s = .next u.tick := by
  rw [step_run hf hp, State.runWord, hu, finishCycle_next huf]

/-- Settles O11: the step answers the operation's state ticked. -/
theorem timersTickAfterTheOperation : Obligations.TimersTickAfterTheOperation := fun _ u hf hp hu huf =>
  ⟨u.tick, step_eq_tick hf hp hu huf, tickTimer_toNat u.dt, tickTimer_toNat u.st, u.tick_onlyChanges⟩

/-! ### The halted machine (R107) -/

/-- A cycle on a halted machine changes nothing and returns the latched record. -/
theorem hostCycle_halted {s : State} {r : FaultRecord} (h : s.fault = some r) : s.hostCycle = (s, .faulted r) := by
  simp only [State.hostCycle, step_halted h]

@[simp] theorem State.hostLoad_fault (s : State) (bytes : List Byte) : (s.hostLoad bytes).1.fault = s.fault := by
  unfold State.hostLoad
  split
  · rfl
  · exact s.storeBytes_fault progBase bytes

@[simp] theorem State.hostKey_fault (s : State) (k : Int) (pressed : Bool) :
    (s.hostKey k pressed).1.fault = s.fault := by
  unfold State.hostKey
  split <;> rfl

/-- Only `reset` clears a latched fault. -/
theorem transact_keeps_fault {s : State} {r : FaultRecord} (h : s.fault = some r) {tr : Transaction}
    (htr : tr ≠ .reset) : (transact s tr).1.fault = some r := by
  cases tr with
  | cycle => simp only [transact, hostCycle_halted h, h]
  | reset => exact absurd rfl htr
  | loadProgram bytes => exact (s.hostLoad_fault bytes).trans h
  | setKey k => exact (s.hostKey_fault k true).trans h
  | clearKey k => exact (s.hostKey_fault k false).trans h
  | readout => exact h

/-- Settles O12, transaction by transaction. -/
theorem haltedMachineStaysHalted : Obligations.HaltedMachineStaysHalted := fun _ _ h =>
  ⟨hostCycle_halted h, fun _ => transact_keeps_fault h, rfl⟩

end Sys2Proof.Machine
end

section
/-! SUPPORT. The return, jumps, call and register skips (spec/41_control_flow.md): where PC and the stack end up, that
nothing else moves, and the two stack faults. -/

namespace Sys2Proof.Machine

/-! ### Addresses as numbers -/

theorem zextAddr_toNat (nnn : Addr12) : (zextAddr nnn).toNat = nnn.toNat :=
  BitVec.toNat_setWidth_of_le (by decide)

theorem zextByte_toNat (b : Byte) : (zextByte b).toNat = b.toNat :=
  BitVec.toNat_setWidth_of_le (by decide)

/-- R123: a byte and a 12-bit address add up to at most 4350, so that the 16-bit sum is exact. -/
theorem zextByte_add_zextAddr_toNat (b : Byte) (nnn : Addr12) :
    (zextByte b + zextAddr nnn).toNat = b.toNat + nnn.toNat := by
  have hb : b.toNat < 2 ^ 8 := b.isLt
  have hn : nnn.toNat < 2 ^ 12 := nnn.isLt
  have hlt : (zextByte b).toNat + (zextAddr nnn).toNat < 2 ^ 16 := by
    rw [zextByte_toNat, zextAddr_toNat]
    omega
  rw [BitVec.toNat_add_of_lt hlt, zextByte_toNat, zextAddr_toNat]

/-! ### Frames of control flow -/

section
variable (s : State) (p : Word)

/-- An operation that sets PC and the stack changes no other element. -/
theorem setPcStack_onlyChanges (stk : List Word) :
    OnlyChanges [.pc, .stack] s { s with pc := p, stack := stk } := fun e he => by
  cases e with
  | pc | stack => simp at he
  | v | mem => exact fun _ => rfl
  | fb | key => exact fun _ _ => rfl
  | _ => rfl

/-- The same for an operation that sets PC alone. -/
theorem setPc_onlyChanges : OnlyChanges [.pc] s { s with pc := p } := fun e he => by
  cases e with
  | pc => simp at he
  | stack => rfl
  | _ => exact setPcStack_onlyChanges s p s.stack _ (by simp)

end

/-! ### Skips (R128) -/

section
variable (s : State)

/-- A skip after the fetch advance moves PC by 4 when taken and by 2 when not, and changes nothing else. -/
theorem State.skipIf_advance (taken : Bool) :
    s.advance.skipIf taken = { s with pc := if taken then s.pc + 4 else s.pc + 2 } := by
  have h4 : s.pc + 2 + 2 = s.pc + 4 := BitVec.add_assoc s.pc 2 2
  cases taken with
  | false => rfl
  | true => exact congrArg (fun p => { s with pc := p }) h4

theorem State.skipIf_advance_onlyChanges (taken : Bool) : OnlyChanges [.pc] s (s.advance.skipIf taken) := by
  rw [s.skipIf_advance]
  exact setPc_onlyChanges s _

theorem State.skipIf_advance_pc_beq (a b : Byte) :
    (s.advance.skipIf (a == b)).pc = if a = b then s.pc + 4 else s.pc + 2 := by
  simp only [s.skipIf_advance, beq_iff_eq]

theorem State.skipIf_advance_pc_bne (a b : Byte) :
    (s.advance.skipIf (a != b)).pc = if a = b then s.pc + 2 else s.pc + 4 := by
  simp only [s.skipIf_advance, bne_iff_ne, ne_eq, ite_not]

end

/-! ### The stack (R120, R122) -/

theorem State.stackFull_iff {s : State} : s.stackFull = true ↔ s.cfg.stackCap = some s.stack.length := by
  unfold State.stackFull
  cases s.cfg.stackCap with
  | none => simp
  | some c => rw [beq_iff_eq, Option.some_inj, eq_comm]

theorem exec_ret_cons (u : Nibble) {s : State} {w : Word} {rest : List Word} (h : s.stack = w :: rest) :
    exec (.ret u) s = .next { s with pc := w, stack := rest } := by
  simp only [exec, execRet, h]

theorem exec_ret_nil (u : Nibble) {s : State} (h : s.stack = []) :
    exec (.ret u) s = s.raise (.ret u) .stackUnderflow .none := by
  simp only [exec, execRet, h]

theorem exec_call_room (nnn : Addr12) {s : State} (h : s.cfg.stackCap ≠ some s.stack.length) :
    exec (.call nnn) s = .next { s with pc := zextAddr nnn, stack := s.pc :: s.stack } :=
  if_neg (mt State.stackFull_iff.mp h)

theorem exec_call_full (nnn : Addr12) {s : State} (h : s.cfg.stackCap = some s.stack.length) :
    exec (.call nnn) s = s.raise (.call nnn) .stackOverflow .none :=
  if_pos (State.stackFull_iff.mpr h)

/-! ### The obligations -/

/-- Settles O17, by the two forms of the stack. -/
theorem returnPopsTheStack : Obligations.ReturnPopsTheStack :=
  ⟨rowDecodes_of_getElem? (k := 1) rfl,
   fun u w rest s h => ⟨_, exec_ret_cons u h, rfl, rfl, setPcStack_onlyChanges s w rest⟩,
   fun u s h => (exec_ret_nil u (s := s.advance) h).trans (s.raise_advance _ _ _)⟩

/-- Settles O18: zero-extension keeps the number. -/
theorem jumpSetsPc : Obligations.JumpSetsPc :=
  ⟨rowDecodes_of_getElem? (k := 2) rfl,
   fun nnn s => ⟨_, rfl, zextAddr_toNat nnn, setPc_onlyChanges s _⟩⟩

/-- Settles O19, by whether the stack holds STACK_CAP entries. -/
theorem callPushesReturnAddress : Obligations.CallPushesReturnAddress :=
  ⟨rowDecodes_of_getElem? (k := 3) rfl,
   fun nnn s h => ⟨_, exec_call_room nnn (s := s.advance) h, rfl, zextAddr_toNat nnn, setPcStack_onlyChanges s _ _⟩,
   fun nnn s h => (exec_call_full nnn (s := s.advance) h).trans (s.raise_advance _ _ _)⟩

/-- Settles O20: the 16-bit sum does not wrap. -/
theorem jumpWithOffsetAddsV0 : Obligations.JumpWithOffsetAddsV0 :=
  ⟨rowDecodes_of_getElem? (k := 20) rfl,
   fun nnn s => ⟨_, rfl, zextByte_add_zextAddr_toNat (s.readV 0) nnn, setPc_onlyChanges s _⟩⟩

/-- Settles O21: both are the skip on Vx against kk. -/
theorem immediateSkips : Obligations.ImmediateSkips :=
  ⟨rowDecodes_of_getElem? (k := 4) rfl, rowDecodes_of_getElem? (k := 5) rfl, fun x kk s =>
    ⟨⟨_, rfl, s.skipIf_advance_pc_beq (s.readV x) kk, s.skipIf_advance_onlyChanges _⟩,
     ⟨_, rfl, s.skipIf_advance_pc_bne (s.readV x) kk, s.skipIf_advance_onlyChanges _⟩⟩⟩

/-- Settles O22: both are the skip on Vx against Vy, whatever the unused nibble. -/
theorem registerSkips : Obligations.RegisterSkips :=
  ⟨rowDecodes_of_getElem? (k := 6) rfl, rowDecodes_of_getElem? (k := 18) rfl, fun x y _ s =>
    ⟨⟨_, rfl, s.skipIf_advance_pc_beq (s.readV x) (s.readV y), s.skipIf_advance_onlyChanges _⟩,
     ⟨_, rfl, s.skipIf_advance_pc_bne (s.readV x) (s.readV y), s.skipIf_advance_onlyChanges _⟩⟩⟩

end Sys2Proof.Machine
end

section
/-! SUPPORT. The register loads and the ALU (spec/42_register_alu.md): each result and flag as a number, which registers
an operation leaves alone, and the destination and VF under both flag orders (R153). -/

namespace Sys2Proof.Machine

/-! ### Results and flags as numbers -/

theorem addMod_toNat (a b : Byte) : (addMod a b).toNat = (a.toNat + b.toNat) % 256 :=
  BitVec.toNat_ofNat _ _

/-- The exact difference modulo 256, written without a negative number. -/
theorem subMod_toNat (a b : Byte) : (subMod a b).toNat = (a.toNat + 256 - b.toNat) % 256 := by
  have hb : b.toNat < 2 ^ 8 := b.isLt
  rw [subMod, BitVec.toNat_ofInt]
  omega

theorem flagByte_toNat (c : Bool) : (flagByte c).toNat = if c then 1 else 0 := by
  cases c <;> rfl

theorem carryFlag_toNat (a b : Byte) : (carryFlag a b).toNat = if a.toNat + b.toNat > 255 then 1 else 0 := by
  rw [carryFlag, flagByte_toNat]
  simp only [decide_eq_true_eq]

theorem greaterFlag_toNat (a b : Byte) : (greaterFlag a b).toNat = if a.toNat > b.toNat then 1 else 0 := by
  rw [greaterFlag, flagByte_toNat]
  simp only [decide_eq_true_eq]

theorem lowBitFlag_toNat (a : Byte) : (lowBitFlag a).toNat = a.toNat % 2 := by
  rw [lowBitFlag, BitVec.toNat_and]
  exact Nat.and_one_is_mod _

theorem shiftRightOne_toNat (a : Byte) : (a >>> 1).toNat = a.toNat / 2 := by
  rw [BitVec.toNat_ushiftRight, Nat.shiftRight_one]

theorem shiftLeftOne_toNat (a : Byte) : (a <<< 1).toNat = a.toNat * 2 % 256 := by
  rw [BitVec.toNat_shiftLeft, Nat.shiftLeft_eq]

/-- The top bit of a byte is its quotient by 128. -/
theorem highBitFlag_toNat (a : Byte) : (highBitFlag a).toNat = a.toNat / 128 := by
  have ha : a.toNat < 2 ^ 8 := a.isLt
  calc (highBitFlag a).toNat
      = (a.toNat &&& 128) >>> 7 := by rw [highBitFlag, BitVec.toNat_ushiftRight, BitVec.toNat_and]; rfl
    _ = a.toNat / 128 % 2 := by rw [Nat.shiftRight_and_distrib, Nat.shiftRight_eq_div_pow]; exact Nat.and_one_is_mod _
    _ = a.toNat / 128 := by omega

/-! ### Frames of register writes -/

section
variable (s : State)

/-- An operation that sets general registers alone changes no other element. -/
theorem setV_onlyChanges (v : Vector Byte 16) : OnlyChanges [.v] s { s with v := v } := fun e he => by
  cases e with
  | v => simp at he
  | mem => exact fun _ => rfl
  | fb | key => exact fun _ _ => rfl
  | _ => rfl

theorem State.writeV_regsKeptBut (r : Nibble) (b : Byte) : RegsKeptBut [r] s (s.writeV r b) := fun _ hq =>
  s.readV_writeV_of_ne (Ne.symm (List.ne_of_not_mem_cons hq)) b

theorem State.writeV_frame (r : Nibble) (b : Byte) :
    RegsKeptBut [r] s (s.writeV r b) ∧ OnlyChanges [.v] s (s.writeV r b) :=
  ⟨s.writeV_regsKeptBut r b, setV_onlyChanges s _⟩

theorem State.writeV_writeV_regsKeptBut (r q : Nibble) (b c : Byte) :
    RegsKeptBut [r, q] s ((s.writeV r b).writeV q c) := fun p hp => by
  obtain ⟨hr, hq⟩ : p ≠ r ∧ p ≠ q := by simpa using hp
  rw [State.readV_writeV_of_ne _ hq.symm, State.readV_writeV_of_ne _ hr.symm]

theorem State.flagThenResult_onlyChanges (x a b : Nibble) (flag result : Byte → Byte → Byte) :
    OnlyChanges [.v] s (s.flagThenResult x a b flag result) := by
  unfold State.flagThenResult
  cases s.cfg.aluFlagOrder with
  | sequential | simultaneous => exact setV_onlyChanges s _

theorem State.flagThenResult_regsKeptBut (x a b : Nibble) (flag result : Byte → Byte → Byte) :
    RegsKeptBut [x, VF] s (s.flagThenResult x a b flag result) := fun r hr => by
  obtain ⟨hx, hvf⟩ : r ≠ x ∧ r ≠ VF := by simpa using hr
  rw [State.readV_flagThenResult, if_neg hx.symm, if_neg hvf.symm]

theorem State.flagThenResult_frame (x a b : Nibble) (flag result : Byte → Byte → Byte) :
    RegsKeptBut [x, VF] s (s.flagThenResult x a b flag result) ∧
      OnlyChanges [.v] s (s.flagThenResult x a b flag result) :=
  ⟨s.flagThenResult_regsKeptBut x a b flag result, s.flagThenResult_onlyChanges x a b flag result⟩

/-! ### Flag, then result (R153) -/

/-- What the result of 8xy5, 8xy6, 8xy7 and 8xyE reads in register `q` when the flag is `f`: under Sequential VF holds
`f` by then. -/
def State.operandAfterFlag (f : Byte) (q : Nibble) : Byte :=
  match s.cfg.aluFlagOrder with
  | .sequential   => if VF = q then f else s.readV q
  | .simultaneous => s.readV q

theorem State.operandAfterFlag_of_ne (f : Byte) {q : Nibble} (h : q ≠ VF) : s.operandAfterFlag f q = s.readV q := by
  unfold State.operandAfterFlag
  cases s.cfg.aluFlagOrder with
  | sequential => exact if_neg h.symm
  | simultaneous => rfl

theorem State.operandAfterFlag_VF_sequential {s : State} (h : s.cfg.aluFlagOrder = .sequential) (f : Byte) :
    s.operandAfterFlag f VF = f := by
  simp only [State.operandAfterFlag, h, if_true]

theorem State.operandAfterFlag_simultaneous {s : State} (h : s.cfg.aluFlagOrder = .simultaneous) (f : Byte)
    (q : Nibble) : s.operandAfterFlag f q = s.readV q := by
  simp only [State.operandAfterFlag, h]

theorem State.readV_flagThenResult_dest (x a b : Nibble) (flag result : Byte → Byte → Byte) :
    (s.flagThenResult x a b flag result).readV x =
      result (s.operandAfterFlag (flag (s.readV a) (s.readV b)) a)
        (s.operandAfterFlag (flag (s.readV a) (s.readV b)) b) := by
  rw [State.readV_flagThenResult, if_pos rfl]
  rfl

theorem State.readV_flagThenResult_VF {x : Nibble} (h : x ≠ VF) (a b : Nibble) (flag result : Byte → Byte → Byte) :
    (s.flagThenResult x a b flag result).readV VF = flag (s.readV a) (s.readV b) := by
  rw [State.readV_flagThenResult, if_neg h, if_pos rfl]

/-- Swapping the operands is swapping the arguments of flag and result. -/
theorem State.flagThenResult_swap (x a b : Nibble) (flag result : Byte → Byte → Byte) :
    s.flagThenResult x a b flag result =
      s.flagThenResult x b a (fun c d => flag d c) (fun c d => result d c) := rfl

/-- R147 and R149 for different operands: `fl` and `res` say flag and result as numbers. The result reads the new VF
where VF is an operand and the order is Sequential. -/
theorem State.flagThenResult_regReg {flag result : Byte → Byte → Byte} {fl res : Nat → Nat → Nat}
    (hfl : ∀ a b, (flag a b).toNat = fl a.toNat b.toNat) (hres : ∀ a b, (result a b).toNat = res a.toNat b.toNat)
    {x y : Nibble} (hxy : x ≠ y) :
    let t := s.flagThenResult x x y flag result
    let a := (s.readV x).toNat
    let b := (s.readV y).toNat
    let f := fl a b
    if x = VF then
      (s.cfg.aluFlagOrder = .sequential → (t.readV VF).toNat = res f b) ∧
      (s.cfg.aluFlagOrder = .simultaneous → (t.readV VF).toNat = res a b)
    else if y = VF then
      (t.readV VF).toNat = f ∧
      (s.cfg.aluFlagOrder = .sequential → (t.readV x).toNat = res a f) ∧
      (s.cfg.aluFlagOrder = .simultaneous → (t.readV x).toNat = res a b)
    else (t.readV VF).toNat = f ∧ (t.readV x).toNat = res a b := by
  intro t a b f
  have hdest := s.readV_flagThenResult_dest x x y flag result
  have hflag (hx : x ≠ VF) : (t.readV VF).toNat = f := by rw [s.readV_flagThenResult_VF hx, hfl]
  have hsim (h : s.cfg.aluFlagOrder = .simultaneous) : (t.readV x).toNat = res a b := by
    rw [hdest, operandAfterFlag_simultaneous h, operandAfterFlag_simultaneous h, hres]
  split_ifs with hx hy
  · subst hx
    refine ⟨fun h => ?_, hsim⟩
    rw [hdest, operandAfterFlag_VF_sequential h, s.operandAfterFlag_of_ne _ hxy.symm, hres, hfl]
  · subst hy
    refine ⟨hflag hx, fun h => ?_, hsim⟩
    rw [hdest, operandAfterFlag_VF_sequential h, s.operandAfterFlag_of_ne _ hx, hres, hfl]
  · refine ⟨hflag hx, ?_⟩
    rw [hdest, s.operandAfterFlag_of_ne _ hx, s.operandAfterFlag_of_ne _ hy, hres]

/-- R147 and R149 for equal operands: both the flag and the difference are 0, under either order. -/
theorem State.flagThenResult_subtract_self (x : Nibble) :
    let t := s.flagThenResult x x x greaterFlag subMod
    (t.readV x).toNat = 0 ∧ (t.readV VF).toNat = 0 := by
  intro t
  have hdest : (t.readV x).toNat = 0 := by
    rw [s.readV_flagThenResult_dest, subMod_toNat, Nat.add_sub_cancel_left]
  refine ⟨hdest, ?_⟩
  rcases eq_or_ne x VF with rfl | hx
  · exact hdest
  · rw [s.readV_flagThenResult_VF hx, greaterFlag_toNat, if_neg (Nat.lt_irrefl _)]

/-- R148 and R150: `fl` and `res` say flag and result as numbers, `both` the result of the flag, which is what VF holds
under Sequential when it is the register shifted. -/
theorem State.flagThenResult_unary {flag result : Byte → Byte} {fl res both : Nat → Nat}
    (hfl : ∀ a, (flag a).toNat = fl a.toNat) (hres : ∀ a, (result a).toNat = res a.toNat)
    (hboth : ∀ a, (result (flag a)).toNat = both a.toNat) (x : Nibble) :
    let t := s.flagThenResult x x x (fun a _ => flag a) (fun a _ => result a)
    let a := (s.readV x).toNat
    if x = VF then
      (s.cfg.aluFlagOrder = .sequential → (t.readV VF).toNat = both a) ∧
      (s.cfg.aluFlagOrder = .simultaneous → (t.readV VF).toNat = res a)
    else (t.readV VF).toNat = fl a ∧ (t.readV x).toNat = res a := by
  intro t a
  have hdest := s.readV_flagThenResult_dest x x x (fun a _ => flag a) (fun a _ => result a)
  split_ifs with hx
  · subst hx
    constructor <;> intro h
    · rw [hdest, operandAfterFlag_VF_sequential h, hboth]
    · rw [hdest, operandAfterFlag_simultaneous h, hres]
  · rw [s.readV_flagThenResult_VF hx, hdest, s.operandAfterFlag_of_ne _ hx]
    exact ⟨hfl _, hres _⟩

end

/-! ### The obligations -/

/-- Settles O27: equal operands, else `flagThenResult_regReg`. -/
theorem subtractSetsGreaterFlag : Obligations.SubtractSetsGreaterFlag := by
  refine ⟨rowDecodes_of_getElem? (k := 14) rfl, fun x y s =>
    ⟨_, rfl, ?_, s.flagThenResult_frame ..⟩⟩
  rcases eq_or_ne x y with rfl | hxy
  · exact (if_pos rfl).mpr (s.flagThenResult_subtract_self x)
  · exact (if_neg hxy).mpr (s.flagThenResult_regReg (fl := fun a b => if a > b then 1 else 0)
      (res := fun a b => (a + 256 - b) % 256) greaterFlag_toNat subMod_toNat hxy)

/-- Settles O28: the same with the arguments of flag and difference swapped. -/
theorem reverseSubtractSetsGreaterFlag : Obligations.ReverseSubtractSetsGreaterFlag := by
  refine ⟨rowDecodes_of_getElem? (k := 16) rfl, fun x y s =>
    ⟨_, rfl, ?_, s.flagThenResult_frame ..⟩⟩
  rcases eq_or_ne x y with rfl | hxy
  · exact (if_pos rfl).mpr (s.flagThenResult_subtract_self x)
  · rw [s.flagThenResult_swap]
    exact (if_neg hxy).mpr (s.flagThenResult_regReg (fl := fun a b => if b > a then 1 else 0)
      (res := fun a b => (b + 256 - a) % 256) (fun a b => greaterFlag_toNat b a) (fun a b => subMod_toNat b a) hxy)

/-- Settles O29: shifting the dropped bit right gives 0. -/
theorem shiftRightDropsBitIntoVf : Obligations.ShiftRightDropsBitIntoVf := by
  have hboth (a : Byte) : (lowBitFlag a >>> 1).toNat = 0 := by
    rw [shiftRightOne_toNat, lowBitFlag_toNat]
    omega
  exact ⟨rowDecodes_of_getElem? (k := 15) rfl, fun x _ s =>
    ⟨_, rfl, s.flagThenResult_unary (fl := fun n => n % 2) (res := fun n => n / 2) (both := fun _ => 0)
      lowBitFlag_toNat shiftRightOne_toNat hboth x,
      s.flagThenResult_frame ..⟩⟩

/-- Settles O30: shifting the dropped bit left gives twice that bit. -/
theorem shiftLeftDropsBitIntoVf : Obligations.ShiftLeftDropsBitIntoVf := by
  have hboth (a : Byte) : (highBitFlag a <<< 1).toNat = a.toNat / 128 * 2 := by
    have ha : a.toNat < 2 ^ 8 := a.isLt
    rw [shiftLeftOne_toNat, highBitFlag_toNat]
    omega
  exact ⟨rowDecodes_of_getElem? (k := 17) rfl, fun x _ s =>
    ⟨_, rfl, s.flagThenResult_unary (fl := fun n => n / 128) (res := fun n => n * 2 % 256)
      (both := fun n => n / 128 * 2) highBitFlag_toNat shiftLeftOne_toNat hboth x,
      s.flagThenResult_frame ..⟩⟩

/-- Settles O23: each load is one register write. -/
theorem registerLoads : Obligations.RegisterLoads :=
  ⟨rowDecodes_of_getElem? (k := 7) rfl, rowDecodes_of_getElem? (k := 9) rfl,
   fun x kk s => ⟨_, rfl, s.readV_writeV_same x kk, s.writeV_frame x _⟩,
   fun x y s => ⟨_, rfl, s.readV_writeV_same x (s.readV y), s.writeV_frame x _⟩⟩

/-- Settles O24: one register write, of the sum modulo 256. -/
theorem addImmediateWrapsWithoutFlag : Obligations.AddImmediateWrapsWithoutFlag :=
  ⟨rowDecodes_of_getElem? (k := 8) rfl, fun x kk s =>
    ⟨_, rfl, (congrArg BitVec.toNat (s.readV_writeV_same x _)).trans (addMod_toNat (s.readV x) kk),
      s.writeV_frame x _⟩⟩

/-- Settles O25: one register write each, of the word-wide operation, whose bits are those of the operands. -/
theorem logicOperationsAreBitwise : Obligations.LogicOperationsAreBitwise := by
  refine ⟨rowDecodes_of_getElem? (k := 10) rfl, rowDecodes_of_getElem? (k := 11) rfl,
    rowDecodes_of_getElem? (k := 12) rfl, fun x y s => ⟨?or, ?and, ?xor⟩⟩
  case or =>
    refine ⟨_, rfl, fun k _ => ?_, s.writeV_frame x _⟩
    rw [s.readV_writeV_same, BitVec.getLsbD_or]
  case and =>
    refine ⟨_, rfl, fun k _ => ?_, s.writeV_frame x _⟩
    rw [s.readV_writeV_same, BitVec.getLsbD_and]
  case xor =>
    refine ⟨_, rfl, fun k _ => ?_, s.writeV_frame x _⟩
    rw [s.readV_writeV_same, BitVec.getLsbD_xor]

/-- Settles O26: the carry is the last write, and the sum stands below it unless it went to VF. -/
theorem addWritesSumThenCarry : Obligations.AddWritesSumThenCarry := by
  refine ⟨rowDecodes_of_getElem? (k := 13) rfl, fun x y s =>
    ⟨_, rfl, fun hx => ?sum, ?carry, s.writeV_writeV_regsKeptBut x VF _ _, setV_onlyChanges s _⟩⟩
  case sum => rw [State.readV_writeV_of_ne _ (Ne.symm hx), s.readV_writeV_same, addMod_toNat]
  case carry => rw [State.readV_writeV_same, carryFlag_toNat]

end Sys2Proof.Machine
end

section
/-! SUPPORT. The index register and the memory transfers (spec/43_index_memory.md): where I ends up, the two outcomes of
a data access (R176), and what a run of byte stores or of register loads writes and leaves alone. -/

namespace Sys2Proof.Machine

section
variable (s : State)

/-! ### The index register -/

/-- An operation that sets I alone changes no other element. -/
theorem setI_onlyChanges (a : Word) : OnlyChanges [.i] s { s with i := a } := fun e he => by
  cases e with
  | i => simp at he
  | v | mem => exact fun _ => rfl
  | fb | key => exact fun _ _ => rfl
  | _ => rfl

theorem add_zextByte_toNat (a : Word) (b : Byte) : (a + zextByte b).toNat = (a.toNat + b.toNat) % 65536 := by
  rw [BitVec.toNat_add, zextByte_toNat]

/-- R172: the highest glyph address is 0x50 + 5 * 255, which 16 bits hold. -/
theorem glyphAddress_toNat (b : Byte) : (BitVec.ofNat 16 (fontBase + 5 * b.toNat)).toNat = 0x50 + 5 * b.toNat := by
  have hb : b.toNat < 2 ^ 8 := b.isLt
  have hlt : fontBase + 5 * b.toNat < 2 ^ 16 := by simp only [fontBase]; omega
  exact (BitVec.toNat_ofNat _ 16).trans (Nat.mod_eq_of_lt hlt)

/-! ### The two outcomes of a data access (R176) -/

theorem State.withDataRange_of_le (i : Instr) {count : Nat} (h : s.i.toNat + count ≤ 4096) (t : State) :
    s.withDataRange i count t = .next t := by
  rw [s.withDataRange_eq, if_pos (.inr h)]

/-- Out of range the effect `t` is dropped, and the state before the cycle has FAULT latched. -/
theorem State.withDataRange_advance_of_gt (i : Instr) {count : Nat} (h0 : 0 < count) (h : 4096 < s.i.toNat + count)
    (t : State) :
    s.advance.withDataRange i count t =
      .next (s.latch .memoryOutOfBounds (some (encode i)) (.addr (max s.i.toNat 4096))) := by
  rw [s.advance.withDataRange_eq, s.advance_i, if_neg (by omega), s.raise_advance]

/-! ### A run of byte stores -/

theorem State.storeBytes_onlyChanges (a : Nat) (bs : List Byte) : OnlyChanges [.mem] s (s.storeBytes a bs) :=
  fun e he => by
    cases e with
    | mem => simp at he
    | v => exact s.readV_storeBytes a bs
    | key => exact fun k _ => s.keyPressed_storeBytes a bs k
    | _ => simp [Element.kept]

/-- The `k`-th byte stored is read back at the `k`-th address. -/
theorem State.loadByte_storeBytes_add {a n k : Nat} {bs : List Byte} (hlen : bs.length = n) (h : a + n ≤ 4096)
    (hk : k < n) : (s.storeBytes a bs).loadByte (a + k) = bs.getD k 0 := by
  rw [s.loadByte_storeBytes bs (by omega), if_pos (by omega), Nat.add_sub_cancel_left]

theorem State.storeBytes_memKeptBut {a n : Nat} {bs : List Byte} (hlen : bs.length = n) (h : a + n ≤ 4096) :
    MemKeptBut a n s (s.storeBytes a bs) := fun c hc => by
  rw [s.loadByte_storeBytes bs (by omega), if_neg (by omega)]

/-! ### A run of register loads -/

theorem State.loadRegs_onlyChanges (k : Nat) (bs : List Byte) : OnlyChanges [.v] s (s.loadRegs k bs) :=
  fun e he => by
    cases e with
    | v => simp at he
    | mem => exact s.loadByte_loadRegs k bs
    | key => exact fun q _ => s.keyPressed_loadRegs k bs q
    | _ => simp [Element.kept]

/-! ### Registers 0 to x as a block (R174, R175) -/

theorem State.firstRegs_getD_toNat {n : Nat} {r : Nibble} (h : r.toNat < n) :
    (s.firstRegs n).getD r.toNat 0 = s.readV r := by
  rw [s.firstRegs_getD h, BitVec.ofNat_toNat, BitVec.setWidth_eq]

/-- Registers 0 to `n - 1` get the bytes from `a` on, and the others read as before. -/
theorem State.readV_loadRegs_loadBytes {n : Nat} (hn : n ≤ 16) (a : Nat) (r : Nibble) :
    (s.loadRegs 0 (s.loadBytes a n)).readV r = if r.toNat < n then s.loadByte (a + r.toNat) else s.readV r := by
  rw [s.readV_loadRegs _ (by simpa using hn), s.loadBytes_length, Nat.zero_add, Nat.sub_zero]
  by_cases hr : r.toNat < n
  · rw [if_pos ⟨r.toNat.zero_le, hr⟩, if_pos hr, s.loadBytes_getD hr]
  · rw [if_neg (fun h => hr h.2), if_neg hr]

/-! ### The decimal digits (R173) -/

/-- Each digit is below 10, so that the byte that holds it is the digit. -/
theorem bcdDigits_toNat (b : Byte) :
    ((bcdDigits b).getD 0 0).toNat = b.toNat / 100 ∧ ((bcdDigits b).getD 1 0).toNat = b.toNat / 10 % 10 ∧
      ((bcdDigits b).getD 2 0).toNat = b.toNat % 10 := by
  have hb : b.toNat < 2 ^ 8 := b.isLt
  have hofNat {n : Nat} (hn : n < 2 ^ 8) : (BitVec.ofNat 8 n).toNat = n :=
    (BitVec.toNat_ofNat n 8).trans (Nat.mod_eq_of_lt hn)
  exact ⟨hofNat (by omega), hofNat (by omega), hofNat (by omega)⟩

end

/-! ### The obligations -/

/-- Settles O37: the block is one run of stores of V0 to Vx. -/
theorem registerBlockStore : Obligations.RegisterBlockStore := by
  refine ⟨rowDecodes_of_getElem? (k := 32) rfl, fun x s h => ?inRange, fun x s h => ?outOfRange⟩
  case inRange =>
    have hlen : (s.firstRegs (x.toNat + 1)).length = x.toNat + 1 := s.firstRegs_length _
    refine ⟨_, s.withDataRange_of_le _ h _, fun r hr => ?_, s.storeBytes_memKeptBut hlen h,
      s.storeBytes_onlyChanges _ _⟩
    have hr' : r.toNat < x.toNat + 1 := Nat.lt_succ_of_le hr
    rw [s.loadByte_storeBytes_add hlen h hr', s.firstRegs_getD_toNat hr']
  case outOfRange => exact s.withDataRange_advance_of_gt _ x.toNat.succ_pos (Nat.lt_succ_of_le h) _

/-- Settles O38: the block is one run of loads into V0 to Vx. -/
theorem registerBlockLoad : Obligations.RegisterBlockLoad := by
  refine ⟨rowDecodes_of_getElem? (k := 33) rfl, fun x s h => ?inRange, fun x s h => ?outOfRange⟩
  case inRange =>
    have hread := s.readV_loadRegs_loadBytes x.isLt s.i.toNat
    refine ⟨_, s.withDataRange_of_le _ h _, fun r hr => ?_, fun r hr => ?_, s.loadRegs_onlyChanges _ _⟩
    · rw [hread, if_pos (Nat.lt_succ_of_le hr)]
    · rw [hread, if_neg (Nat.not_lt.mpr hr)]
  case outOfRange => exact s.withDataRange_advance_of_gt _ x.toNat.succ_pos (Nat.lt_succ_of_le h) _

/-- Settles O33: zero-extension keeps the number. -/
theorem indexLoad : Obligations.IndexLoad :=
  ⟨rowDecodes_of_getElem? (k := 19) rfl, fun nnn s => ⟨_, rfl, zextAddr_toNat nnn, setI_onlyChanges s _⟩⟩

/-- Settles O34: the 16-bit sum is the exact one modulo 65536. -/
theorem indexAddWraps : Obligations.IndexAddWraps :=
  ⟨rowDecodes_of_getElem? (k := 29) rfl, fun x s =>
    ⟨_, rfl, add_zextByte_toNat s.i (s.readV x), setI_onlyChanges s _⟩⟩

/-- Settles O35: the glyph address does not wrap. -/
theorem indexPointsAtGlyph : Obligations.IndexPointsAtGlyph :=
  ⟨rowDecodes_of_getElem? (k := 30) rfl, fun x s =>
    ⟨_, rfl, glyphAddress_toNat (s.readV x), setI_onlyChanges s _⟩⟩

/-- Settles O36: one run of three stores, of the digits. -/
theorem bcdStoresThreeDigits : Obligations.BcdStoresThreeDigits := by
  refine ⟨rowDecodes_of_getElem? (k := 31) rfl, fun x s h => ?inRange, fun x s h => ?outOfRange⟩
  case inRange =>
    have hlen : (bcdDigits (s.readV x)).length = 3 := rfl
    have hread (k : Nat) (hk : k < 3) := congrArg BitVec.toNat (s.loadByte_storeBytes_add hlen h hk)
    obtain ⟨hundreds, tens, units⟩ := bcdDigits_toNat (s.readV x)
    exact ⟨_, s.withDataRange_of_le _ h _, (hread 0 (by omega)).trans hundreds, (hread 1 (by omega)).trans tens,
      (hread 2 (by omega)).trans units, s.storeBytes_memKeptBut hlen h, s.storeBytes_onlyChanges _ _⟩
  case outOfRange => exact s.withDataRange_advance_of_gt _ (Nat.succ_pos 2) (Nat.lt_succ_of_le h) _

end Sys2Proof.Machine
end

section
/-! SUPPORT. Clearing the framebuffer and drawing a sprite (spec/44_display.md): the canvas a draw leaves, cell by cell
against `spriteCovers`, and that a display operation writes nothing else but VF. -/

namespace Sys2Proof.Machine

section
variable (x y n : Nibble) (s : State)

/-! ### The canvas of a draw -/

/-- The rows that `Dxyn` from state `s` draws from row `oy` on (R192). -/
def State.drawnCount : Nat := drawnRows n ((s.readV y).toNat % fbHeight)

/-- The framebuffer and the collision that `Dxyn` leaves when the bytes it reads are in range (R191). -/
def State.drawCanvas : Canvas :=
  drawRows ((s.readV x).toNat % fbWidth) ((s.readV y).toNat % fbHeight) (s.loadBytes s.i.toNat (s.drawnCount y n))
    (s.fb, false)

/-- The state after a draw in range. -/
def State.drawn : State :=
  State.writeV { s with fb := (s.drawCanvas x y n).1 } VF (collisionFlag (s.drawCanvas x y n).2)

theorem exec_drw : exec (.drw x y n) s = s.withDataRange (.drw x y n) (s.drawnCount y n) (s.drawn x y n) := rfl

theorem State.drawnCount_eq : s.drawnCount y n = min n.toNat (32 - (s.readV y).toNat % 32) := rfl

/-- The origin's row lies in the framebuffer, so that a sprite with rows has a row that is drawn. -/
theorem State.drawnCount_eq_zero_iff : s.drawnCount y n = 0 ↔ n = 0 := by
  have hzero : n = 0 ↔ n.toNat = 0 := BitVec.toNat_inj.symm
  rw [hzero, s.drawnCount_eq]
  omega

/-! ### The cells a sprite paints -/

/-- A painted cell by its own row and column: they fix the byte and the bit that paint it. -/
theorem paintsAt_iff (bs : List Byte) (ox oy j : Nat) :
    paintsAt bs ox oy j ↔
      (ox ≤ j % 64 ∧ j % 64 < ox + 8 ∧ oy ≤ j / 64 ∧ j / 64 < oy + bs.length) ∧
        (bs.getD (j / 64 - oy) 0).getLsbD (7 - (j % 64 - ox)) = true := by
  constructor
  · rintro ⟨k, hk, c, hc, ⟨hcol, hbit⟩, rfl⟩
    have hmod : ((oy + k) * 64 + (ox + c)) % 64 = ox + c := by omega
    have hdiv : ((oy + k) * 64 + (ox + c)) / 64 = oy + k := by omega
    rw [hmod, hdiv, Nat.add_sub_cancel_left, Nat.add_sub_cancel_left]
    exact ⟨by omega, hbit⟩
  · rintro ⟨hrange, hbit⟩
    exact ⟨j / 64 - oy, by omega, j % 64 - ox, by omega, ⟨by omega, hbit⟩, by omega⟩

/-- The bytes a draw reads paint exactly the cells `spriteCovers` names: a row is drawn when it is one of the sprite's
and one of the framebuffer's. -/
theorem paintsAt_loadBytes_iff (idx : Nat) :
    paintsAt (s.loadBytes s.i.toNat (s.drawnCount y n)) ((s.readV x).toNat % 64) ((s.readV y).toNat % 32) idx ↔
      spriteCovers x y n s idx = true := by
  have hrows : idx / 64 < (s.readV y).toNat % 32 + s.drawnCount y n ↔
      idx / 64 < (s.readV y).toNat % 32 + n.toNat ∧ idx / 64 < 32 := by
    rw [s.drawnCount_eq]
    omega
  simp only [paintsAt_iff, spriteCovers, Bool.and_eq_true, decide_eq_true_eq, State.loadBytes_length, hrows]
  refine and_congr_right fun ⟨_, _, htop, hbottom⟩ => ?_
  rw [s.loadBytes_getD (by have := hrows.mpr hbottom; omega)]

theorem lt_of_spriteCovers {x y n : Nibble} {s : State} {idx : Nat} (h : spriteCovers x y n s idx = true) :
    idx < 2048 := by
  simp only [spriteCovers, Bool.and_eq_true, decide_eq_true_eq] at h
  omega

/-- The drawn rows end inside the framebuffer, as `drawRows_spec` needs. -/
theorem State.drawnRows_fit :
    (s.readV y).toNat % 32 + (s.loadBytes s.i.toNat (s.drawnCount y n)).length ≤ 32 := by
  rw [s.loadBytes_length, s.drawnCount_eq]
  omega

/-- R191: each cell is the old one XOR whether the sprite covers it. -/
theorem State.drawCanvas_cell (idx : Nat) :
    (s.drawCanvas x y n).1.cell idx = (s.fb.cell idx ^^ spriteCovers x y n s idx) := by
  have hcell := (drawRows_spec ((s.readV x).toNat % 64) _ _ (s.drawnRows_fit y n) (s.fb, false)).1 idx
  rw [paintsAt_loadBytes_iff] at hcell
  rw [Bool.eq_iff_iff]
  refine hcell.trans ?_
  cases s.fb.cell idx <;> cases spriteCovers x y n s idx <;> decide

/-- R191: a draw collides when a covered cell was on. -/
theorem State.drawCanvas_collision :
    (s.drawCanvas x y n).2 = true ↔ ∃ idx, spriteCovers x y n s idx = true ∧ s.fb.cell idx = true := by
  have hcollision := (drawRows_spec ((s.readV x).toNat % 64) _ _ (s.drawnRows_fit y n) (s.fb, false)).2
  simp only [Bool.false_eq_true, false_or, paintsAt_loadBytes_iff] at hcollision
  exact hcollision

/-! ### VF after a draw -/

theorem State.readV_VF_drawn : (s.drawn x y n).readV VF = collisionFlag (s.drawCanvas x y n).2 :=
  State.readV_writeV_same _ VF _

theorem State.readV_VF_drawn_of_collision {idx : Nat} (hcov : spriteCovers x y n s idx = true)
    (hon : s.fb.cell idx = true) : (s.drawn x y n).readV VF = 1 := by
  rw [s.readV_VF_drawn, (s.drawCanvas_collision x y n).mpr ⟨idx, hcov, hon⟩]
  rfl

theorem State.readV_VF_drawn_of_noCollision
    (hoff : ∀ idx, idx < 2048 → spriteCovers x y n s idx = true → s.fb.cell idx = false) :
    (s.drawn x y n).readV VF = 0 := by
  have hnone : (s.drawCanvas x y n).2 = false := by
    rw [← Bool.not_eq_true, s.drawCanvas_collision]
    rintro ⟨idx, hcov, hon⟩
    rw [hoff idx (lt_of_spriteCovers hcov) hcov] at hon
    exact Bool.false_ne_true hon
  rw [s.readV_VF_drawn, hnone]
  rfl

/-! ### Frames of the display operations -/

/-- An operation that sets general registers and the framebuffer changes no other element. -/
theorem setVFb_onlyChanges (v : Vector Byte 16) (fb : Framebuffer) :
    OnlyChanges [.v, .fb] s { s with v := v, fb := fb } := fun e he => by
  cases e with
  | v | fb => simp at he
  | mem => exact fun _ => rfl
  | key => exact fun _ _ => rfl
  | _ => rfl

/-- The same for an operation that sets the framebuffer alone. -/
theorem setFb_onlyChanges (fb : Framebuffer) : OnlyChanges [.fb] s { s with fb := fb } := fun e he => by
  cases e with
  | fb => simp at he
  | v => exact fun _ => rfl
  | _ => exact setVFb_onlyChanges s s.v fb _ (by simp)

theorem State.drawn_regsKeptBut : RegsKeptBut [VF] s (s.drawn x y n) :=
  State.writeV_regsKeptBut { s with fb := (s.drawCanvas x y n).1 } VF _

end

/-! ### The obligations -/

/-- Settles O41, by whether the drawn rows' bytes are in range; the cells and the collision are those of the canvas. -/
theorem drawXorsTheSprite : Obligations.DrawXorsTheSprite := by
  refine ⟨rowDecodes_of_getElem? (k := 22) rfl, fun x y n s h => ?inRange, fun x y n s hn h => ?outOfRange⟩
  case inRange =>
    have hnext : exec (.drw x y n) s = .next (s.drawn x y n) := by
      rw [exec_drw, s.withDataRange_eq]
      exact if_pos (h.imp_left (s.drawnCount_eq_zero_iff y n).mpr)
    exact ⟨_, hnext, fun idx _ => s.drawCanvas_cell x y n idx,
      fun ⟨_, _, hcov, hon⟩ => s.readV_VF_drawn_of_collision x y n hcov hon,
      s.readV_VF_drawn_of_noCollision x y n, s.drawn_regsKeptBut x y n, setVFb_onlyChanges s _ _⟩
  case outOfRange =>
    have hpos : 0 < s.drawnCount y n := Nat.pos_of_ne_zero (mt (s.drawnCount_eq_zero_iff y n).mp hn)
    exact s.withDataRange_advance_of_gt _ hpos h _

/-- Settles O40: the cleared framebuffer has every cell off. -/
theorem clearTurnsEveryCellOff : Obligations.ClearTurnsEveryCellOff :=
  ⟨rowDecodes_of_getElem? (k := 0) rfl, fun _ s =>
    ⟨_, rfl, fun idx _ => Framebuffer.cell_clear idx, setFb_onlyChanges s _⟩⟩

end Sys2Proof.Machine
end

section
/-! SUPPORT. The key skips, the key wait and the timer moves (spec/45_keys_timers.md): what each answers after the fetch
advance, that nothing else moves, and what the tick of the same cycle leaves of it (R105). -/

namespace Sys2Proof.Machine

/-! ### Frames of the timers -/

section
variable (s : State)

theorem onlyChanges_refl (W : List Element) : OnlyChanges W s s := fun e _ => by
  cases e with
  | v | mem => exact fun _ => rfl
  | fb | key => exact fun _ _ => rfl
  | _ => rfl

/-- An operation that sets the timers changes no other element. -/
theorem setTimers_onlyChanges (d t : Byte) : OnlyChanges [.dt, .st] s { s with dt := d, st := t } := fun e he => by
  cases e with
  | dt | st => simp at he
  | v | mem => exact fun _ => rfl
  | fb | key => exact fun _ _ => rfl
  | _ => rfl

/-- The same for an operation that sets DT alone. -/
theorem setDt_onlyChanges (d : Byte) : OnlyChanges [.dt] s { s with dt := d } := fun e he => by
  cases e with
  | dt => simp at he
  | st => rfl
  | _ => exact setTimers_onlyChanges s d s.st _ (by simp)

/-- The same for an operation that sets ST alone. -/
theorem setSt_onlyChanges (t : Byte) : OnlyChanges [.st] s { s with st := t } := fun e he => by
  cases e with
  | st => simp at he
  | dt => rfl
  | _ => exact setTimers_onlyChanges s s.dt t _ (by simp)

end

/-! ### The whole cycle of one instruction -/

/-- `step_eq_tick` for a word that decodes to an instruction. -/
theorem step_eq_tick_of_exec {s u : State} {i : Instr} (hf : s.fault = none) (hp : s.pc.toNat < 4095)
    (hi : decode s.cfg.strictDecode s.fetchWord = .op i) (hu : exec i s.advance = .next u) (huf : u.fault = none) :
    step s = .next u.tick :=
  step_eq_tick hf hp ((congrArg (executeOperation · s.advance) hi).trans hu) huf

/-! ### The key wait (R212) -/

theorem State.lowestKey_eq_none {s : State} (h : ∀ k, k < 16 → s.keyPressed k = false) : s.lowestKey = none := by
  obtain ⟨hnone, -⟩ | ⟨k, -, hk, hpressed, -⟩ := s.lowestKey_cases
  · exact hnone
  · exact absurd hpressed (Bool.eq_false_iff.mp (h k hk))

/-- The search finds a pressed key below which none is pressed, because there is only one such key. -/
theorem State.lowestKey_eq_some {s : State} {k : Nat} (hk : k < 16) (hpressed : s.keyPressed k = true)
    (hlow : ∀ j, j < k → s.keyPressed j = false) : s.lowestKey = some k := by
  obtain ⟨-, hnone⟩ | ⟨j, hj, -, hjpressed, hjlow⟩ := s.lowestKey_cases
  · exact absurd hpressed (Bool.eq_false_iff.mp (hnone k hk))
  · have hkj : ¬k < j := fun h => Bool.eq_false_iff.mp (hjlow k h) hpressed
    have hjk : ¬j < k := fun h => Bool.eq_false_iff.mp (hlow j h) hjpressed
    rw [hj, Nat.le_antisymm (Nat.not_lt.mp hkj) (Nat.not_lt.mp hjk)]

/-- With no key pressed the rewind of PC is the fetch advance taken back: the state is the one before the cycle. -/
theorem exec_ldVxK_none (x : Nibble) {s : State} (h : ∀ k, k < 16 → s.keyPressed k = false) :
    exec (.ldVxK x) s.advance = .next s := by
  have hnone : s.advance.lowestKey = none := State.lowestKey_eq_none (s := s.advance) h
  have hrewind : exec (.ldVxK x) s.advance = .next { s with pc := s.pc + 2 - 2 } := by
    simp only [exec, execLdVxK, hnone]
    rfl
  rw [hrewind, BitVec.add_sub_cancel]

theorem exec_ldVxK_some (x : Nibble) {s : State} {k : Nat} (h : s.lowestKey = some k) :
    exec (.ldVxK x) s = .next (s.writeV x (BitVec.ofNat 8 k)) := by
  simp only [exec, execLdVxK, h]

/-! ### The key skips (R210, R211, R216) -/

section
variable (x : Nibble) {s : State}

theorem exec_skp_of_le (h : (s.readV x).toNat ≤ 15) :
    exec (.skp x) s = .next (s.skipIf (s.keyPressed (s.readV x).toNat)) :=
  if_neg (Nat.not_lt.mpr h)

theorem exec_sknp_of_le (h : (s.readV x).toNat ≤ 15) :
    exec (.sknp x) s = .next (s.skipIf (!s.keyPressed (s.readV x).toNat)) :=
  if_neg (Nat.not_lt.mpr h)

theorem exec_skp_of_gt (h : 15 < (s.readV x).toNat) :
    exec (.skp x) s = s.raise (.skp x) .keyIndexOutOfRange (.key (s.readV x)) :=
  if_pos h

theorem exec_sknp_of_gt (h : 15 < (s.readV x).toNat) :
    exec (.sknp x) s = s.raise (.sknp x) .keyIndexOutOfRange (.key (s.readV x)) :=
  if_pos h

end

theorem State.skipIf_advance_pc (s : State) (taken : Bool) :
    (s.advance.skipIf taken).pc = if taken then s.pc + 4 else s.pc + 2 :=
  congrArg State.pc (s.skipIf_advance taken)

theorem State.skipIf_advance_pc_not (s : State) (held : Bool) :
    (s.advance.skipIf !held).pc = if held then s.pc + 2 else s.pc + 4 := by
  rw [s.skipIf_advance_pc]
  cases held <;> rfl

/-! ### The obligations -/

/-- Settles O44, by whether a key is pressed: with none the cycle is a tick of the state before it. -/
theorem keyWaitPollsTheLowestKey : Obligations.KeyWaitPollsTheLowestKey := by
  refine ⟨rowDecodes_of_getElem? (k := 26) rfl, fun x s h => ⟨?wait, fun hf hp hi => ?cycle⟩,
    fun x k s hk hpressed hlow => ?pressed⟩
  case wait => exact ⟨s, exec_ldVxK_none x h, onlyChanges_refl s _⟩
  case cycle =>
    exact ⟨s.tick, step_eq_tick_of_exec hf hp hi (exec_ldVxK_none x h) hf, tickTimer_toNat s.dt, tickTimer_toNat s.st,
      s.tick_onlyChanges⟩
  case pressed =>
    refine ⟨_, exec_ldVxK_some x (State.lowestKey_eq_some hk hpressed hlow), ?_, s.writeV_frame x _⟩
    rw [s.readV_writeV_same, BitVec.toNat_ofNat]
    exact Nat.mod_eq_of_lt (Nat.lt_trans hk (by decide))

/-- Settles O43, by whether Vx names a key; the two skips test the key the opposite way round. -/
theorem keySkips : Obligations.KeySkips := by
  refine ⟨rowDecodes_of_getElem? (k := 23) rfl, rowDecodes_of_getElem? (k := 24) rfl,
    fun x s h => ?key, fun x s h => ?noKey⟩
  case key =>
    exact ⟨⟨_, exec_skp_of_le x (s := s.advance) h, s.skipIf_advance_pc _, s.skipIf_advance_onlyChanges _⟩,
      ⟨_, exec_sknp_of_le x (s := s.advance) h, s.skipIf_advance_pc_not _, s.skipIf_advance_onlyChanges _⟩⟩
  case noKey =>
    exact ⟨(exec_skp_of_gt x (s := s.advance) h).trans (s.raise_advance _ _ _),
      (exec_sknp_of_gt x (s := s.advance) h).trans (s.raise_advance _ _ _)⟩

/-- Settles O45: the register is written before the tick, which leaves it alone. -/
theorem delayTimerIsReadBeforeTheTick : Obligations.DelayTimerIsReadBeforeTheTick :=
  ⟨rowDecodes_of_getElem? (k := 25) rfl,
   fun x s => ⟨_, rfl, s.readV_writeV_same x s.dt, s.writeV_frame x _⟩,
   fun x s hf hp hi => ⟨(s.advance.writeV x s.dt).tick, step_eq_tick_of_exec hf hp hi rfl hf,
     s.advance.readV_writeV_same x s.dt, tickTimer_toNat s.dt⟩⟩

/-- Settles O46: each timer is set before the tick, which takes one from both. -/
theorem timersAreSetThenTick : Obligations.TimersAreSetThenTick :=
  ⟨rowDecodes_of_getElem? (k := 27) rfl, rowDecodes_of_getElem? (k := 28) rfl,
   fun _ s => ⟨⟨_, rfl, rfl, setDt_onlyChanges s _⟩, ⟨_, rfl, rfl, setSt_onlyChanges s _⟩⟩,
   fun x s hf hp =>
    ⟨fun hi => ⟨_, step_eq_tick_of_exec hf hp hi rfl hf, tickTimer_toNat (s.readV x), tickTimer_toNat s.st⟩,
     fun hi => ⟨_, step_eq_tick_of_exec hf hp hi rfl hf, tickTimer_toNat (s.readV x), tickTimer_toNat s.dt⟩⟩⟩

end Sys2Proof.Machine
end

section
/-! SUPPORT. The host's transactions (spec/50_host_interface.md): the two outcomes of a load and of a key write, the words
of the readout, and that none of the three looks at FAULT (R240). -/

namespace Sys2Proof.Machine

section
variable (s : State)

/-! ### Loading a program (R231) -/

theorem State.hostLoad_of_le {bytes : List Byte} (h : bytes.length ≤ 3584) :
    s.hostLoad bytes = (s.storeBytes progBase bytes, .ok) :=
  if_neg (Nat.not_lt.mpr h)

theorem State.hostLoad_of_gt {bytes : List Byte} (h : 3584 < bytes.length) :
    s.hostLoad bytes = (s, .hostError .programTooLarge) :=
  if_pos h

/-! ### Setting and clearing a key (R232, R233) -/

/-- The state with KEY[k] written. -/
def State.withKey (k : Nat) (pressed : Bool) : State := { s with key := s.key.setIfInBounds k pressed }

theorem State.hostKey_of_valid {k : Int} (h : 0 ≤ k ∧ k ≤ 15) (pressed : Bool) :
    s.hostKey k pressed = (s.withKey k.toNat pressed, .ok) :=
  if_pos h

theorem State.hostKey_of_invalid {k : Int} (h : k < 0 ∨ 15 < k) (pressed : Bool) :
    s.hostKey k pressed = (s, .hostError .invalidKeyIndex) :=
  if_neg (by omega)

theorem State.keyPressed_withKey_same {k : Nat} (hk : k < 16) (pressed : Bool) :
    (s.withKey k pressed).keyPressed k = pressed := by
  simp only [State.keyPressed, State.withKey, Vector.getElem?_setIfInBounds_self_of_lt hk, Option.getD_some]

theorem State.keyPressed_withKey_ne {k j : Nat} (hjk : j ≠ k) (pressed : Bool) :
    (s.withKey k pressed).keyPressed j = s.keyPressed j := by
  simp only [State.keyPressed, State.withKey, Vector.getElem?_setIfInBounds_ne hjk.symm]

theorem State.withKey_onlyChanges (k : Nat) (pressed : Bool) : OnlyChanges [.key] s (s.withKey k pressed) :=
  fun e he => by
    cases e with
    | key => simp at he
    | v | mem => exact fun _ => rfl
    | fb => exact fun _ _ => rfl
    | _ => rfl

/-- What `setKey` and `clearKey` do with a valid index: they differ in the value written alone. -/
theorem State.hostKey_sets_one_key {k : Int} (h : 0 ≤ k ∧ k ≤ 15) (pressed : Bool) :
    ∃ t, s.hostKey k pressed = (t, .ok) ∧ t.keyPressed k.toNat = pressed ∧
      (∀ j, j < 16 → j ≠ k.toNat → t.keyPressed j = s.keyPressed j) ∧ OnlyChanges [.key] s t :=
  ⟨_, s.hostKey_of_valid h pressed, s.keyPressed_withKey_same (by omega) pressed,
   fun _ _ hj => s.keyPressed_withKey_ne hj pressed, s.withKey_onlyChanges _ pressed⟩

/-! ### The readout (R236) -/

theorem State.frameWords_getElem {idx : Nat} (h : idx < 2048) :
    s.frameWords[idx] = if s.fb.cell idx then 0xFFFFFFFF else 0x00000000 :=
  Vector.getElem_ofFn h

/-! ### FAULT does not reach a load, a key write or the readout (R240) -/

/-- The state with FAULT set to `f`. -/
def State.withFault (f : Option FaultRecord) : State := { s with fault := f }

variable (f : Option FaultRecord)

theorem State.storeByte_withFault (a : Nat) (b : Byte) :
    (s.withFault f).storeByte a b = (s.storeByte a b).withFault f := by
  unfold State.storeByte
  split <;> rfl

theorem State.storeBytes_withFault (a : Nat) (bs : List Byte) :
    (s.withFault f).storeBytes a bs = (s.storeBytes a bs).withFault f := by
  induction bs generalizing s a with
  | nil => rfl
  | cons b bs ih => rw [State.storeBytes, s.storeByte_withFault f, ih, State.storeBytes]

theorem State.hostLoad_withFault (bytes : List Byte) :
    (s.withFault f).hostLoad bytes = ((s.hostLoad bytes).1.withFault f, (s.hostLoad bytes).2) := by
  obtain h | h := Nat.lt_or_ge 3584 bytes.length
  · simp only [State.hostLoad_of_gt _ h]
  · simp only [State.hostLoad_of_le _ h, s.storeBytes_withFault f]

theorem State.hostKey_withFault (k : Int) (pressed : Bool) :
    (s.withFault f).hostKey k pressed = ((s.hostKey k pressed).1.withFault f, (s.hostKey k pressed).2) := by
  unfold State.hostKey
  split <;> rfl

/-- A transaction that runs no cycle and does not reset works the same whatever FAULT holds, and carries it along. -/
theorem transact_withFault {tr : Transaction} (hc : tr ≠ .cycle) (hr : tr ≠ .reset) :
    transact (s.withFault f) tr = ((transact s tr).1.withFault f, (transact s tr).2) := by
  cases tr with
  | cycle => exact absurd rfl hc
  | reset => exact absurd rfl hr
  | loadProgram bytes => exact s.hostLoad_withFault f bytes
  | setKey k => exact s.hostKey_withFault f k true
  | clearKey k => exact s.hostKey_withFault f k false
  | readout => rfl

end

/-! ### The obligations -/

/-- Settles O47, by the length: a program that fits is a run of byte stores from 0x200 on, which ends inside memory. -/
theorem loadProgramCopiesOrRejects : Obligations.LoadProgramCopiesOrRejects := by
  refine fun s bytes => ⟨fun h => ?fits, s.hostLoad_of_gt⟩
  have hend : progBase + bytes.length ≤ 4096 := by simp only [progBase]; omega
  exact ⟨_, s.hostLoad_of_le h, fun _ hk => s.loadByte_storeBytes_add rfl hend hk, s.storeBytes_memKeptBut rfl hend,
    s.storeBytes_onlyChanges _ _⟩

/-- Settles O48: both transactions are one key write. -/
theorem keyTransactionsSetOneKey : Obligations.KeyTransactionsSetOneKey := fun s _ =>
  ⟨fun h => ⟨s.hostKey_sets_one_key h true, s.hostKey_sets_one_key h false⟩,
   fun h => ⟨s.hostKey_of_invalid h true, s.hostKey_of_invalid h false⟩⟩

/-- Settles O49: the words are those of `frameWords`, cell by cell. -/
theorem readoutGivesEveryCell : Obligations.ReadoutGivesEveryCell := fun s =>
  ⟨s.frameWords, rfl, fun _ h => s.frameWords_getElem h⟩

/-- Settles O51: the halted machine is the one without the fault with FAULT set to the record, and only the cycle and
`reset` look at FAULT. -/
theorem faultedMachineServesTheHost : Obligations.FaultedMachineServesTheHost := by
  refine fun s r h => ⟨hostCycle_halted h, rfl, fun tr hc hr => ?_⟩
  have hs : (s.withFault none).withFault (some r) = s := by rw [← h]; rfl
  have hcommute := transact_withFault (s.withFault none) (some r) hc hr
  rw [hs] at hcommute
  exact Prod.ext_iff.mp hcommute

end Sys2Proof.Machine
end

section
/-! SUPPORT. The word of a decoded instruction is the word that was decoded (R72, R76), which is why a fault record that
holds the encoding of the instruction holds the fetched word (R35). -/

namespace Sys2Proof

section
variable {w : Word} (f : Nibble)

/-! ### The word from what a default mask fixes and the operands it leaves -/

theorem encodeAddr_of_mask (h : w &&& 0xF000 = encodeRegReg f 0 0 0) : encodeAddr f (opNNN w) = w := by
  rw [← (mask_family_iff f).mp h, encodeAddr_fields]

theorem encodeRegByte_of_mask (h : w &&& 0xF000 = encodeRegReg f 0 0 0) : encodeRegByte f (opX w) (opKK w) = w := by
  rw [← (mask_family_iff f).mp h, encodeRegByte_fields]

theorem encodeRegByte_of_mask_byte (kk : Byte) (h : w &&& 0xF0FF = encodeRegByte f 0 kk) :
    encodeRegByte f (opX w) kk = w := by
  obtain ⟨hf, hk⟩ := (mask_byte_iff f kk).mp h
  rw [← hf, ← hk, encodeRegByte_fields]

theorem encodeRegReg_of_mask (h : w &&& 0xF000 = encodeRegReg f 0 0 0) :
    encodeRegReg f (opX w) (opY w) (opN w) = w := by
  rw [← (mask_family_iff f).mp h, encodeRegReg_fields]

theorem encodeRegReg_of_mask_nibble (n : Nibble) (h : w &&& 0xF00F = encodeRegReg f 0 0 n) :
    encodeRegReg f (opX w) (opY w) n = w := by
  obtain ⟨hf, hn⟩ := (mask_nibble_iff f n).mp h
  rw [← hf, ← hn, encodeRegReg_fields]

end

/-! ### Every row gives back its words -/

/-- The instruction that the row makes from a word of its own has that word as its encoding. -/
def OpcodeRow.Encodes (r : OpcodeRow) : Prop := ∀ w : Word, w &&& r.mask = r.matchBits → encode (r.make w) = w

theorem opcodeMapLow_encodes : ∀ r ∈ opcodeMapLow, r.Encodes := by
  simp only [opcodeMapLow, List.forall_mem_cons]
  exact ⟨fun _ => encodeRegByte_of_mask_byte 0x0 0xE0, fun _ => encodeRegByte_of_mask_byte 0x0 0xEE,
    fun _ => encodeAddr_of_mask 0x1, fun _ => encodeAddr_of_mask 0x2, fun _ => encodeRegByte_of_mask 0x3,
    fun _ => encodeRegByte_of_mask 0x4, fun _ => encodeRegReg_of_mask 0x5, fun _ => encodeRegByte_of_mask 0x6,
    fun _ => encodeRegByte_of_mask 0x7, List.forall_mem_nil _⟩

theorem opcodeMapAlu_encodes : ∀ r ∈ opcodeMapAlu, r.Encodes := by
  simp only [opcodeMapAlu, List.forall_mem_cons]
  exact ⟨fun _ => encodeRegReg_of_mask_nibble 0x8 0x0, fun _ => encodeRegReg_of_mask_nibble 0x8 0x1,
    fun _ => encodeRegReg_of_mask_nibble 0x8 0x2, fun _ => encodeRegReg_of_mask_nibble 0x8 0x3,
    fun _ => encodeRegReg_of_mask_nibble 0x8 0x4, fun _ => encodeRegReg_of_mask_nibble 0x8 0x5,
    fun _ => encodeRegReg_of_mask_nibble 0x8 0x6, fun _ => encodeRegReg_of_mask_nibble 0x8 0x7,
    fun _ => encodeRegReg_of_mask_nibble 0x8 0xE, List.forall_mem_nil _⟩

theorem opcodeMapMid_encodes : ∀ r ∈ opcodeMapMid, r.Encodes := by
  simp only [opcodeMapMid, List.forall_mem_cons]
  exact ⟨fun _ => encodeRegReg_of_mask 0x9, fun _ => encodeAddr_of_mask 0xA, fun _ => encodeAddr_of_mask 0xB,
    fun _ => encodeRegByte_of_mask 0xC, fun _ => encodeRegReg_of_mask 0xD,
    fun _ => encodeRegByte_of_mask_byte 0xE 0x9E, fun _ => encodeRegByte_of_mask_byte 0xE 0xA1, List.forall_mem_nil _⟩

theorem opcodeMapHigh_encodes : ∀ r ∈ opcodeMapHigh, r.Encodes := by
  simp only [opcodeMapHigh, List.forall_mem_cons]
  exact ⟨fun _ => encodeRegByte_of_mask_byte 0xF 0x07, fun _ => encodeRegByte_of_mask_byte 0xF 0x0A,
    fun _ => encodeRegByte_of_mask_byte 0xF 0x15, fun _ => encodeRegByte_of_mask_byte 0xF 0x18,
    fun _ => encodeRegByte_of_mask_byte 0xF 0x1E, fun _ => encodeRegByte_of_mask_byte 0xF 0x29,
    fun _ => encodeRegByte_of_mask_byte 0xF 0x33, fun _ => encodeRegByte_of_mask_byte 0xF 0x55,
    fun _ => encodeRegByte_of_mask_byte 0xF 0x65, List.forall_mem_nil _⟩

theorem opcodeMap_encodes : ∀ r ∈ opcodeMap, r.Encodes := by
  simp only [opcodeMap, List.forall_mem_append]
  exact ⟨⟨⟨opcodeMapLow_encodes, opcodeMapAlu_encodes⟩, opcodeMapMid_encodes⟩, opcodeMapHigh_encodes⟩

/-! ### From the map to the decoder -/

/-- R75: STRICT_DECODE only adds bits to a row's mask, none of which the row's match sets. -/
theorem opcodeMap_maskStrict :
    ∀ r ∈ opcodeMap, r.maskStrict &&& r.mask = r.mask ∧ r.matchBits &&& r.mask = r.matchBits := by
  decide

/-- A word that a row covers under either setting has the row's match under the default mask. -/
theorem mask_eq_of_covers {strict : Bool} {w : Word} {r : OpcodeRow} (hr : r ∈ opcodeMap)
    (h : r.covers strict w = true) : w &&& r.mask = r.matchBits := by
  obtain ⟨hmask, hmatch⟩ := opcodeMap_maskStrict r hr
  cases strict with
  | false => exact OpcodeRow.covers_iff.mp h
  | true =>
    have hw : w &&& r.maskStrict = r.matchBits := OpcodeRow.covers_iff.mp h
    rw [← hmask, ← BitVec.and_assoc, hw, hmatch]

/-- Encoding what a word decodes to gives the word back. -/
theorem encode_of_decode {strict : Bool} {w : Word} {i : Instr} (h : decode strict w = .op i) : encode i = w := by
  obtain ⟨r, hr, hc⟩ := covered_of_decode h
  have hmake : decode strict w = .op (r.make w) := opcodeMap_decodes r hr strict w (OpcodeRow.covers_iff.mp hc)
  rw [Operation.op.inj (h.symm.trans hmake)]
  exact opcodeMap_encodes r hr w (mask_eq_of_covers hr hc)

end Sys2Proof
end

section
/-! SUPPORT. Faults (spec/60_exceptions.md): what each operation answers against column "cause" of R250, and so what a
cycle does with and without a fault. -/

namespace Sys2Proof.Machine

/-! ### The execute phase against the table (R250) -/

section
variable {s : State} {i : Instr}

/-- What `i` answers after the fetch advance when R250 lists the given fault for it: the state before the cycle with that
fault latched, or, with none, some state whose FAULT the operation did not touch. -/
def State.Answers (s : State) (i : Instr) : Option (FaultKind × FaultInfo) → Prop
  | none              => ∃ u, exec i s.advance = .next u ∧ u.fault = s.fault
  | some (kind, info) => exec i s.advance = .next (s.latch kind (some (encode i)) info)

/-- A fault under one condition: the operation raises it when the condition holds, and answers otherwise. -/
theorem State.Answers.of_ite {c : Prop} [Decidable c] {kind : FaultKind} {info : FaultInfo}
    (hraise : c → exec i s.advance = s.advance.raise i kind info)
    (hnext : ¬c → ∃ u, exec i s.advance = .next u ∧ u.fault = s.fault) :
    s.Answers i (if c then some (kind, info) else none) := by
  split
  · next h => exact (hraise h).trans (s.raise_advance i kind info)
  · next h => exact hnext h

/-- The operations that access `count` bytes from I on (R252). -/
theorem State.Answers.of_dataRange {count : Nat} {t : State}
    (hexec : exec i s.advance = s.advance.withDataRange i count t) (ht : t.fault = s.fault) :
    s.Answers i (dataFault s count) := by
  rw [s.advance.withDataRange_eq, s.advance_i] at hexec
  refine .of_ite (fun h => ?_) (fun h => ⟨t, ?_, ht⟩)
  · rw [hexec, if_neg (by omega)]
  · rw [hexec, if_pos (by omega)]

theorem State.answers_ret (u : Nibble) : s.Answers (.ret u) (operationFault s (.op (.ret u))) := by
  refine .of_ite (fun h => exec_ret_nil u (List.eq_nil_of_length_eq_zero h)) (fun h => ?_)
  obtain ⟨w, rest, hstack⟩ := List.exists_cons_of_length_pos (Nat.pos_of_ne_zero h)
  exact ⟨_, exec_ret_cons u (s := s.advance) hstack, rfl⟩

theorem State.answers_ldVxK (x : Nibble) : s.Answers (.ldVxK x) (operationFault s (.op (.ldVxK x))) := by
  obtain ⟨-, hnone⟩ | ⟨k, hk, -⟩ := s.lowestKey_cases
  · exact ⟨s, exec_ldVxK_none x hnone, rfl⟩
  · exact ⟨_, exec_ldVxK_some x (s := s.advance) hk, rfl⟩

/-- Every operation raises what R250 lists for it and nothing else: the eight it names and the key wait in turn, and the
rest answer with no condition. -/
theorem State.answers_operationFault (s : State) (i : Instr) : s.Answers i (operationFault s (.op i)) := by
  cases i with
  | ret u => exact s.answers_ret u
  | call nnn =>
    exact .of_ite (exec_call_full nnn (s := s.advance)) fun h => ⟨_, exec_call_room nnn (s := s.advance) h, rfl⟩
  | skp x =>
    exact .of_ite (exec_skp_of_gt x (s := s.advance)) fun h =>
      ⟨_, exec_skp_of_le x (s := s.advance) (Nat.not_lt.mp h), by simp⟩
  | sknp x =>
    exact .of_ite (exec_sknp_of_gt x (s := s.advance)) fun h =>
      ⟨_, exec_sknp_of_le x (s := s.advance) (Nat.not_lt.mp h), by simp⟩
  | drw x y n => exact .of_dataRange (exec_drw x y n s.advance) rfl
  | ldBVx x => exact .of_dataRange rfl (by simp)
  | ldMemVx x => exact .of_dataRange rfl (by simp)
  | ldVxMem x => exact .of_dataRange rfl (by simp)
  | ldVxK x => exact s.answers_ldVxK x
  | _ => exact ⟨_, rfl, by simp⟩

end

/-! ### The whole cycle against the table -/

section
variable {s : State} {r : FaultRecord}

theorem cycleFault_of_fetch (hp : 4095 ≤ s.pc.toNat) : cycleFault s = some ⟨.fetchOutOfBounds, s.pc, none, .none⟩ :=
  if_pos hp

theorem cycleFault_of_operation (hp : s.pc.toNat < 4095) :
    cycleFault s = (operationFault s (decode s.cfg.strictDecode s.fetchWord)).map
      fun f => ⟨f.1, s.pc, some s.fetchWord, f.2⟩ :=
  if_neg (Nat.not_le.mpr hp)

/-- R35: the address and the opcode of every record of R250. -/
theorem cycleFault_pc_opcode (h : cycleFault s = some r) :
    r.pc = s.pc ∧ r.opcode = if 4095 ≤ s.pc.toNat then none else some s.fetchWord := by
  obtain hp | hp := Nat.lt_or_ge s.pc.toNat 4095
  · rw [cycleFault_of_operation hp] at h
    obtain ⟨_, -, rfl⟩ := Option.map_eq_some_iff.mp h
    exact ⟨rfl, (if_neg (Nat.not_le.mpr hp)).symm⟩
  · rw [cycleFault_of_fetch hp] at h
    cases h
    exact ⟨rfl, (if_pos hp).symm⟩

/-- A cycle with a cause of R250 latches its record on the state before it. -/
theorem step_of_cycleFault_some (hf : s.fault = none) (h : cycleFault s = some r) :
    step s = .next { s with fault := some r } := by
  obtain hp | hp := Nat.lt_or_ge s.pc.toNat 4095
  case inr =>
    rw [cycleFault_of_fetch hp] at h
    rw [step_fetch_fault hf hp, State.latch, ← Option.some.inj h]
  case inl =>
    rw [cycleFault_of_operation hp] at h
    obtain ⟨⟨kind, info⟩, hop, rfl⟩ := Option.map_eq_some_iff.mp h
    rw [step_run hf hp, State.runWord]
    cases hd : decode s.cfg.strictDecode s.fetchWord with
    | nop => rw [hd] at hop; exact nomatch hop
    | op i =>
      have hanswer := s.answers_operationFault i
      rw [← hd, hop] at hanswer
      have hexec : exec i s.advance = .next (s.latch kind (some (encode i)) info) := hanswer
      rw [executeOperation, hexec, finishCycle_faulted rfl, encode_of_decode hd]
      rfl

/-- A cycle without a cause of R250 answers a state that is not halted. -/
theorem step_of_cycleFault_none (hf : s.fault = none) (h : cycleFault s = none) :
    ∃ t, step s = .next t ∧ t.fault = none := by
  obtain hp | hp := Nat.lt_or_ge s.pc.toNat 4095
  case inr => exact nomatch (cycleFault_of_fetch hp).symm.trans h
  case inl =>
    rw [cycleFault_of_operation hp, Option.map_eq_none_iff] at h
    cases hd : decode s.cfg.strictDecode s.fetchWord with
    | nop => exact ⟨s.advance.tick, step_eq_tick hf hp (congrArg (executeOperation · s.advance) hd) hf, hf⟩
    | op i =>
      have hanswer := s.answers_operationFault i
      rw [← hd, h] at hanswer
      obtain ⟨u, hu, huf⟩ := hanswer
      exact ⟨u.tick, step_eq_tick_of_exec hf hp hd hu (huf.trans hf), huf.trans hf⟩

end

/-! ### The obligations -/

/-- Settles O14: the latched record can only be that of R250, and the latch is all that the step did. -/
theorem faultsArePreciseAndTerminal : Obligations.FaultsArePreciseAndTerminal := by
  intro s t r hf hstep ht
  cases hc : cycleFault s with
  | none =>
    obtain ⟨u, hu, huf⟩ := step_of_cycleFault_none hf hc
    obtain rfl : u = t := Host.Outcome.next.inj (hu.symm.trans hstep)
    exact nomatch huf.symm.trans ht
  | some q =>
    have hlatch : { s with fault := some q } = t :=
      Host.Outcome.next.inj ((step_of_cycleFault_some hf hc).symm.trans hstep)
    obtain rfl : q = r := Option.some.inj ((congrArg State.fault hlatch).trans ht)
    obtain ⟨hpc, hopcode⟩ := cycleFault_pc_opcode hc
    exact ⟨hlatch.symm, rfl, hpc, hopcode, hostCycle_halted ht, fun _ => transact_keeps_fault ht,
      fun _ ⟨hrunning, _⟩ => nomatch ht.symm.trans hrunning⟩

/-- Settles O15, by whether the table lists a fault for the cycle. -/
theorem cyclesFaultExactlyAsListed : Obligations.CyclesFaultExactlyAsListed := by
  refine ⟨fun s hf => ?_, rfl, rfl, rfl, rfl, rfl⟩
  cases hc : cycleFault s with
  | none => exact step_of_cycleFault_none hf hc
  | some r => exact ⟨_, step_of_cycleFault_some hf hc, rfl⟩

end Sys2Proof.Machine
end


section
/-! SUPPORT. The decoder against the encoder under both settings of STRICT_DECODE (R72, R75): the setting only rejects
ill-formed instructions, so that decode and encode are inverse; and the words that decode to `NOP` (R78). -/

namespace Sys2Proof

/-! ### What STRICT_DECODE changes -/

section
variable {strict : Bool} {w : Word} {i j : Instr}

/-- An instruction that both settings have is well formed under either. -/
theorem op_eq_iff_of_wellFormed (h : i.wellFormed strict = true) :
    Operation.op i = .op j ↔ Operation.op i = .op j ∧ j.wellFormed strict = true := by
  simp only [Operation.op.injEq, iff_self_and]
  rintro rfl
  exact h

theorem opIfUnusedOk_eq_op_iff {u : Nibble} (h : i.wellFormed strict = unusedNibbleOk strict u) :
    opIfUnusedOk strict u i = .op j ↔ opIfUnusedOk false u i = .op j ∧ j.wellFormed strict = true := by
  have hlax : opIfUnusedOk false u i = .op i := by simp [opIfUnusedOk, unusedNibbleOk]
  rw [hlax, opIfUnusedOk, ← h]
  split
  · next hwf => exact op_eq_iff_of_wellFormed hwf
  · next hwf =>
    simp only [reduceCtorEq, false_iff, Operation.op.injEq]
    rintro ⟨rfl, hj⟩
    exact hwf hj

/-- The strict decoder gives what the default one gives, where that is well formed. -/
theorem decode_eq_op_iff :
    decode strict w = .op i ↔ decode false w = .op i ∧ i.wellFormed strict = true := by
  unfold decode
  split
  case h_1 =>
    unfold decodeFamily0
    split
    case h_3 => simp
    all_goals exact opIfUnusedOk_eq_op_iff rfl
  case h_6 => exact opIfUnusedOk_eq_op_iff rfl
  case h_10 => exact opIfUnusedOk_eq_op_iff rfl
  case h_9 =>
    unfold decodeFamily8
    split
    case h_10 => simp
    all_goals exact op_eq_iff_of_wellFormed rfl
  case h_15 =>
    unfold decodeFamilyE
    split
    case h_3 => simp
    all_goals exact op_eq_iff_of_wellFormed rfl
  case h_16 =>
    unfold decodeFamilyF
    split
    case h_10 => simp
    all_goals exact op_eq_iff_of_wellFormed rfl
  all_goals exact op_eq_iff_of_wellFormed rfl

end

/-! ### Decode and encode are inverse -/

/-- The word of every instruction lies in its line of the map (R76). -/
theorem wordInRow (i : Instr) : Laws.WordInRow.Statement i := by
  open Laws.WordInRow in
  cases i
  exacts [cls _, ret _, jp _, call _, seImm _ _, sneImm _ _, seReg _ _ _, ldImm _ _, addImm _ _, ldReg _ _, orReg _ _,
    andReg _ _, xorReg _ _, addReg _ _, subReg _ _, shr _ _, subnReg _ _, shl _ _, sneReg _ _ _, ldI _, jpV0 _, rnd _ _,
    drw _ _ _, skp _, sknp _, ldVxDt _, ldVxK _, ldDtVx _, ldStVx _, addIVx _, ldFVx _, ldBVx _, ldMemVx _, ldVxMem _]

/-- The default decoder gives every instruction back: its word lies in its row, and the row reads its operands back. -/
theorem decode_false_encode (i : Instr) : decode false (encode i) = .op i := by
  obtain ⟨r, hr, hcovers, hmake⟩ := wordInRow i
  have hdecode : decode false (encode i) = .op (r.make (encode i)) :=
    rowDecodes_of_getElem? hr false (encode i) (OpcodeRow.covers_iff.mp hcovers)
  rw [hdecode, hmake]

/-- Settles O3: the default decoder gives `i` back, and STRICT_DECODE rejects only what is ill-formed. -/
theorem decodeOfEncodeIsIdentity : Obligations.DecodeOfEncodeIsIdentity := fun _ i h =>
  decode_eq_op_iff.mpr ⟨decode_false_encode i, h⟩

/-- Settles O4: the word by the row it lies in, the form by what STRICT_DECODE rejects. -/
theorem encodeOfDecodeIsIdentity : Obligations.EncodeOfDecodeIsIdentity := fun _ _ _ h =>
  ⟨encode_of_decode h, (decode_eq_op_iff.mp h).2⟩

/-- Settles O2: eight runs of the decoder. -/
theorem writtenOutWordsDecode : Obligations.WrittenOutWordsDecode := by
  unfold Obligations.WrittenOutWordsDecode
  decide

/-! ### The NOP space (R78) -/

section
variable {strict : Bool} {w : Word}

theorem opIfUnusedOk_eq_nop_iff {u : Nibble} {i : Instr} :
    opIfUnusedOk strict u i = .nop ↔ strict = true ∧ u ≠ 0 := by
  cases strict <;> simp [opIfUnusedOk, unusedNibbleOk]

theorem decodeFamily0_eq_nop_iff :
    decodeFamily0 strict w = .nop ↔
      (opKK w ≠ 0xE0 ∧ opKK w ≠ 0xEE) ∨ strict = true ∧ (opKK w = 0xE0 ∨ opKK w = 0xEE) ∧ opX w ≠ 0 := by
  unfold decodeFamily0
  split
  case h_1 h => simp [opIfUnusedOk_eq_nop_iff, BitVec.toNat_eq, h]
  case h_2 h => simp [opIfUnusedOk_eq_nop_iff, BitVec.toNat_eq, h]
  case h_3 h₁ h₂ =>
    exact iff_of_true rfl (.inl ⟨fun h => h₁ (congrArg BitVec.toNat h), fun h => h₂ (congrArg BitVec.toNat h)⟩)

theorem decodeFamily8_eq_nop_iff :
    decodeFamily8 w = .nop ↔ opN w ∈ [0x8, 0x9, 0xA, 0xB, 0xC, 0xD, 0xF] := by
  have hlt : (opN w).toNat < 16 := (opN w).isLt
  unfold decodeFamily8
  split
  case h_10 =>
    simp only [imp_false] at *
    simp [BitVec.toNat_eq]
    omega
  all_goals next h => simp [BitVec.toNat_eq, h]

theorem decodeFamilyE_eq_nop_iff : decodeFamilyE w = .nop ↔ opKK w ≠ 0x9E ∧ opKK w ≠ 0xA1 := by
  unfold decodeFamilyE
  split
  case h_3 h₁ h₂ =>
    exact iff_of_true rfl ⟨fun h => h₁ (congrArg BitVec.toNat h), fun h => h₂ (congrArg BitVec.toNat h)⟩
  all_goals next h => simp [BitVec.toNat_eq, h]

theorem decodeFamilyF_eq_nop_iff :
    decodeFamilyF w = .nop ↔ opKK w ∉ [0x07, 0x0A, 0x15, 0x18, 0x1E, 0x29, 0x33, 0x55, 0x65] := by
  unfold decodeFamilyF
  split
  case h_10 =>
    simp only [imp_false] at *
    simp [BitVec.toNat_eq, *]
  all_goals next h => simp [BitVec.toNat_eq, h]

/-- R78, family by family. -/
theorem decode_eq_nop_iff :
    decode strict w = .nop ↔
      (opFamily w = 0x0 ∧ opKK w ≠ 0xE0 ∧ opKK w ≠ 0xEE) ∨
      (opFamily w = 0x8 ∧ opN w ∈ [0x8, 0x9, 0xA, 0xB, 0xC, 0xD, 0xF]) ∨
      (opFamily w = 0xE ∧ opKK w ≠ 0x9E ∧ opKK w ≠ 0xA1) ∨
      (opFamily w = 0xF ∧ opKK w ∉ [0x07, 0x0A, 0x15, 0x18, 0x1E, 0x29, 0x33, 0x55, 0x65]) ∨
      (strict = true ∧
        ((opFamily w = 0x0 ∧ (opKK w = 0xE0 ∨ opKK w = 0xEE) ∧ opX w ≠ 0) ∨
         ((opFamily w = 0x5 ∨ opFamily w = 0x9) ∧ opN w ≠ 0))) := by
  unfold decode
  split
  case h_1 hf =>
    have hf : opFamily w = 0x0 := BitVec.eq_of_toNat_eq hf
    simp [decodeFamily0_eq_nop_iff, hf]
  case h_6 hf =>
    have hf : opFamily w = 0x5 := BitVec.eq_of_toNat_eq hf
    simp [opIfUnusedOk_eq_nop_iff, hf]
  case h_9 hf =>
    have hf : opFamily w = 0x8 := BitVec.eq_of_toNat_eq hf
    simp [decodeFamily8_eq_nop_iff, hf]
  case h_10 hf =>
    have hf : opFamily w = 0x9 := BitVec.eq_of_toNat_eq hf
    simp [opIfUnusedOk_eq_nop_iff, hf]
  case h_15 hf =>
    have hf : opFamily w = 0xE := BitVec.eq_of_toNat_eq hf
    simp [decodeFamilyE_eq_nop_iff, hf]
  case h_16 =>
    have hf : opFamily w = 0xF := opFamily_eq_F fun k hk => by interval_cases k <;> assumption
    simp [decodeFamilyF_eq_nop_iff, hf]
  all_goals next hf => simp [BitVec.toNat_eq, hf]

end

end Sys2Proof
end

section
/-! SUPPORT. What a cycle runs (R102 to R106): the fetched word, a word placed at PC, an encoded instruction, a `NOP`. -/

namespace Sys2Proof.Machine

section
variable {s : State}

/-- A `NOP` leaves the cycle its fetch advance and its tick. -/
theorem step_nop (hf : s.fault = none) (hp : s.pc.toNat < 4095) (hd : decode s.cfg.strictDecode s.fetchWord = .nop) :
    step s = .next s.advance.tick :=
  step_eq_tick hf hp (congrArg (executeOperation · s.advance) hd) hf

theorem State.advance_tick_onlyChanges (s : State) : OnlyChanges [.pc, .dt, .st] s s.advance.tick := fun e he => by
  cases e with
  | pc | dt | st => simp at he
  | _ => simp [Element.kept]

/-- Settles O6: the words family by family, the cycle as advance and tick. -/
theorem undefinedWordsAreNops : Obligations.UndefinedWordsAreNops :=
  ⟨fun _ _ => decode_eq_nop_iff, fun s hf hp hd =>
    ⟨_, step_nop hf hp hd, rfl, tickTimer_toNat s.dt, tickTimer_toNat s.st, s.advance_tick_onlyChanges⟩⟩

/-- A decoded instruction runs on the advanced state, and the end of the cycle follows. -/
theorem step_of_decode {i : Instr} (hf : s.fault = none) (hp : s.pc.toNat < 4095)
    (hd : decode s.cfg.strictDecode s.fetchWord = .op i) : step s = finishCycle (exec i s.advance) := by
  rw [step_run hf hp, State.runWord, hd, executeOperation]

/-- Settles O8, by whether the operation latched a fault. -/
theorem stepRunsTheDecodedInstruction : Obligations.StepRunsTheDecodedInstruction := by
  intro s i t hf hp hd hexec
  have hstep : step s = finishCycle (.next t) := (step_of_decode hf hp hd).trans (congrArg finishCycle hexec)
  cases ht : t.fault with
  | none => rw [hstep, finishCycle_next ht, if_pos rfl]
  | some r => rw [hstep, finishCycle_faulted ht, if_neg nofun]

/-- Settles O9: the two bytes are fetched as the word of the instruction, which decodes to it. -/
theorem encodedInstructionRuns : Obligations.EncodedInstructionRuns := by
  intro s i hf hp hwf hhi hlo
  have hword : s.fetchWord = encode i := by rw [State.fetchWord, hhi, hlo, wordOfBytes_bytes]
  exact step_of_decode hf hp (hword ▸ decodeOfEncodeIsIdentity _ i hwf)

/-- A word placed at PC is fetched, wherever both its bytes lie inside memory. -/
theorem State.fetchWord_withFetchWord (w : Nat) (hp : s.pc.toNat < 4095) :
    (s.withFetchWord 16 w).fetchWord = BitVec.ofNat 16 w := by
  have hpc : (s.withFetchWord 16 w).pc = s.pc := s.storeBytes_pc _ _
  have hread (k : Nat) (hk : k < 2) : (s.withFetchWord 16 w).loadByte (s.pc.toNat + k) = (tableBytes 16 w).getD k 0 :=
    s.loadByte_storeBytes_add (n := 2) rfl (by omega) hk
  have hw : BitVec.ofNat 16 (w % 2 ^ 16) = BitVec.ofNat 16 w := BitVec.eq_of_toNat_eq (by simp)
  rw [State.fetchWord, hpc, hread 1 (by omega), show s.pc.toNat = s.pc.toNat + 0 from rfl, hread 0 (by omega)]
  exact (wordOfBytes_bytes _).trans hw

/-- Settles O10: placing a word moves neither PC nor FAULT, and the placed word is fetched. -/
theorem placedWordRuns : Obligations.PlacedWordRuns := by
  intro s w _ hf hp
  have hf' : (s.withFetchWord 16 w).fault = none := (s.storeBytes_fault _ _).trans hf
  have hpc : (s.withFetchWord 16 w).pc = s.pc := s.storeBytes_pc _ _
  have hp' : (s.withFetchWord 16 w).pc.toNat < 4095 := hpc ▸ hp
  rw [step_run hf' hp', s.fetchWord_withFetchWord w hp]

/-- Settles O13: a machine that is not halted answers a state. -/
theorem stepStopsExactlyWhenHalted : Obligations.StepStopsExactlyWhenHalted := by
  refine fun s r => ⟨fun h => ?_, step_halted⟩
  cases hf : s.fault with
  | none =>
    obtain ⟨t, ht, -⟩ := cyclesFaultExactlyAsListed.1 s hf
    exact nomatch ht.symm.trans h
  | some q =>
    cases (step_halted hf).symm.trans h
    rfl

end

end Sys2Proof.Machine
end

section
/-! SUPPORT. The random load (R151) and the agreement of the two flag orders away from VF (R153). -/

namespace Sys2Proof.Machine

section
variable (s : State)

/-! ### The random load -/

/-- An operation that takes a random byte and sets general registers changes no other element. -/
theorem State.rnd_onlyChanges (x : Nibble) (b : Byte) : OnlyChanges [.v, .rnd] s (s.consumeRandom.writeV x b) :=
  fun e he => by
    cases e with
    | v | rnd => simp at he
    | mem => exact fun _ => rfl
    | fb | key => exact fun _ _ => rfl
    | _ => rfl

/-- Settles O31: the register is the next random byte masked by kk. -/
theorem randomLoadMasksOneByte : Obligations.RandomLoadMasksOneByte := by
  refine ⟨rowDecodes_of_getElem? (k := 21) rfl, fun x kk s => ?_⟩
  have hx : (s.consumeRandom.writeV x (s.randomByte &&& kk)).readV x = s.randomByte &&& kk :=
    State.readV_writeV_same _ x _
  refine ⟨_, rfl, fun k _ => ?bits, fun hkk => ?zero, rfl, s.consumeRandom.writeV_regsKeptBut x _, s.rnd_onlyChanges x _⟩
  case bits => rw [hx, BitVec.getLsbD_and, State.randomByte]
  case zero =>
    rw [hx, hkk]
    exact BitVec.and_zero

/-! ### The flag orders -/

/-- With neither operand in VF the result does not see the flag, whatever the order. -/
theorem State.flagThenResult_of_ne (x : Nibble) {a b : Nibble} (ha : a ≠ VF) (hb : b ≠ VF)
    (flag result : Byte → Byte → Byte) :
    s.flagThenResult x a b flag result =
      (s.writeV VF (flag (s.readV a) (s.readV b))).writeV x (result (s.readV a) (s.readV b)) := by
  unfold State.flagThenResult
  cases s.cfg.aluFlagOrder with
  | sequential => simp only [State.readV_writeV_of_ne s ha.symm, State.readV_writeV_of_ne s hb.symm]
  | simultaneous => rfl

/-- The state with ALU_FLAG_ORDER set to `o`. -/
def State.withFlagOrder (o : AluFlagOrder) : State := { s with cfg := { s.cfg with aluFlagOrder := o } }

theorem State.flagThenResult_withFlagOrder (o : AluFlagOrder) (x : Nibble) {a b : Nibble} (ha : a ≠ VF) (hb : b ≠ VF)
    (flag result : Byte → Byte → Byte) :
    (s.withFlagOrder o).flagThenResult x a b flag result = (s.flagThenResult x a b flag result).withFlagOrder o := by
  rw [State.flagThenResult_of_ne _ x ha hb, State.flagThenResult_of_ne _ x ha hb]
  rfl

/-- The form in which each of the four operations needs it. -/
theorem exec_withFlagOrder {i : Instr} {x a b : Nibble} {flag result : Byte → Byte → Byte}
    (hi : ∀ s, exec i s = .next (s.flagThenResult x a b flag result)) (ha : a ≠ VF) (hb : b ≠ VF) (o : AluFlagOrder) :
    ∃ t, exec i s = .next t ∧
      exec i (s.withFlagOrder o) = .next { t with cfg := { s.cfg with aluFlagOrder := o } } := by
  refine ⟨_, hi s, ?_⟩
  rw [hi, s.flagThenResult_withFlagOrder o x ha hb, State.withFlagOrder, State.flagThenResult_cfg]

/-- Settles O32: the operands of all four are x and y, or x alone. -/
theorem flagOrdersAgreeAwayFromVf : Obligations.FlagOrdersAgreeAwayFromVf := by
  intro x y s o hx hy
  simp only [List.forall_mem_cons]
  exact ⟨exec_withFlagOrder s (fun _ => rfl) hx hy o, exec_withFlagOrder s (fun _ => rfl) hx hx o,
    exec_withFlagOrder s (fun _ => rfl) hy hx o, exec_withFlagOrder s (fun _ => rfl) hx hx o, List.forall_mem_nil _⟩

end

end Sys2Proof.Machine
end

section
/-! SUPPORT. What every operation does, said once: it raises, or it answers a state in which all but its own elements
(R25 to R32, R51) and its own registers (R23) are kept, memory stays canonical, and PC and the stack went where one of
the rules of spec/41_control_flow.md puts them. -/

namespace Sys2Proof.Machine

/-- Where an operation that raises nothing can leave PC and the stack. `s` is the advanced state (R102). -/
inductive State.Flow (s t : State) : Prop where
  /-- No control transfer, a taken skip (R128), or the key wait's way back (R212). -/
  | near (hstack : t.stack = s.stack) (hpc : t.pc = s.pc ∨ t.pc = s.pc + 2 ∨ t.pc = s.pc - 2)
  /-- A jump: 4350 is the largest sum of a byte and a 12-bit address (R123). -/
  | jump (hstack : t.stack = s.stack) (hpc : t.pc.toNat ≤ 4350)
  /-- R120. -/
  | ret (hstack : s.stack = t.pc :: t.stack)
  /-- R122, when the stack is not full. -/
  | call (hroom : s.cfg.stackCap ≠ some s.stack.length) (hstack : t.stack = s.pc :: s.stack) (hpc : t.pc.toNat ≤ 4350)

/-- What `i` may have done from `s` when it answers `t` and raises nothing. -/
structure Effect (i : Instr) (s t : State) : Prop where
  frame : OnlyChanges i.writes s t
  regs  : ∀ r, i.writesReg r = false → t.readV r = s.readV r
  memWF : s.MemWF → t.MemWF
  flow  : s.Flow t

section
variable {i : Instr} {s t : State}

theorem OnlyChanges.mono {W W' : List Element} (h : OnlyChanges W s t) (hsub : W ⊆ W') : OnlyChanges W' s t :=
  fun e he => h e (mt (@hsub e) he)

/-! ### No operation writes the parameters (R7) -/

theorem cfg_not_mem_writes (i : Instr) : .cfg ∉ i.writes := by
  cases i <;> simp [Instr.writes]

theorem Effect.cfg (h : Effect i s t) : t.cfg = s.cfg := h.frame .cfg (cfg_not_mem_writes i)

/-! ### The effects by what is written -/

/-- An operation that leaves memory alone and writes at most the registers `R`. -/
theorem Effect.of_regsKeptBut {R : List Nibble} (frame : OnlyChanges i.writes s t) (hmem : t.mem = s.mem)
    (hregs : RegsKeptBut R s t) (hR : ∀ r ∈ R, i.writesReg r = true) (flow : s.Flow t) : Effect i s t where
  frame := frame
  regs r hr := hregs r fun hmem => absurd (hR r hmem) (Bool.eq_false_iff.mp hr)
  memWF := (State.memWF_congr hmem (frame .cfg (cfg_not_mem_writes i))).mpr
  flow := flow

/-- An operation that leaves memory and the registers alone. -/
theorem Effect.of_v_eq (frame : OnlyChanges i.writes s t) (hmem : t.mem = s.mem) (hv : t.v = s.v) (flow : s.Flow t) :
    Effect i s t :=
  .of_regsKeptBut (R := []) frame hmem (fun r _ => State.readV_congr hv r) (List.forall_mem_nil _) flow

theorem Effect.writeV {x : Nibble} (hv : .v ∈ i.writes) (hx : i.writesReg x = true) (b : Byte) :
    Effect i s (s.writeV x b) :=
  .of_regsKeptBut ((setV_onlyChanges s _).mono (by simpa using hv)) rfl (s.writeV_regsKeptBut x b)
    (by simpa using hx) (.near rfl (.inl rfl))

theorem Effect.flagThenResult {x : Nibble} (hv : .v ∈ i.writes) (hx : i.writesReg x = true)
    (hVF : i.writesReg VF = true) (a b : Nibble) (flag result : Byte → Byte → Byte) :
    Effect i s (s.flagThenResult x a b flag result) :=
  .of_regsKeptBut ((s.flagThenResult_onlyChanges x a b flag result).mono (by simpa using hv)) (by simp)
    (s.flagThenResult_regsKeptBut x a b flag result) (by simpa using ⟨hx, hVF⟩) (.near (by simp) (.inl (by simp)))

theorem State.skipIf_onlyChanges (s : State) (taken : Bool) : OnlyChanges [.pc] s (s.skipIf taken) := by
  cases taken with
  | false => exact onlyChanges_refl s _
  | true => exact setPc_onlyChanges s _

theorem Effect.skipIf (hpc : .pc ∈ i.writes) (taken : Bool) : Effect i s (s.skipIf taken) :=
  .of_v_eq ((s.skipIf_onlyChanges taken).mono (by simpa using hpc)) (by simp) (by simp)
    (.near (by simp) (by cases taken <;> simp))

theorem Effect.storeBytes (hmem : .mem ∈ i.writes) (a : Nat) (bs : List Byte) : Effect i s (s.storeBytes a bs) where
  frame := (s.storeBytes_onlyChanges a bs).mono (by simpa using hmem)
  regs r _ := s.readV_storeBytes a bs r
  memWF h := s.storeBytes_memWF h a bs
  flow := .near (by simp) (.inl (by simp))

/-! ### Every operation has its effect or raises -/

/-- `i` raises from `s`, or answers a state in which it had an effect of its own. -/
def Performs (i : Instr) (s : State) : Prop :=
  (∃ kind info, exec i s = s.raise i kind info) ∨ ∃ t, exec i s = .next t ∧ Effect i s t

theorem Performs.of_effect (hexec : exec i s = .next t) (h : Effect i s t) : Performs i s := .inr ⟨t, hexec, h⟩

theorem Performs.of_dataRange {count : Nat} (hexec : exec i s = s.withDataRange i count t) (h : Effect i s t) :
    Performs i s := by
  rw [s.withDataRange_eq] at hexec
  split at hexec
  · exact .of_effect hexec h
  · exact .inl ⟨_, _, hexec⟩

theorem performs_ret (u : Nibble) : Performs (.ret u) s := by
  cases hstack : s.stack with
  | nil => exact .inl ⟨_, _, exec_ret_nil u hstack⟩
  | cons w rest =>
    exact .of_effect (exec_ret_cons u hstack) (.of_v_eq (setPcStack_onlyChanges s w rest) rfl rfl (.ret hstack))

/-- An address of a jump or call lies in memory, and so below the bound of `State.Flow.jump`. -/
theorem zextAddr_toNat_le (nnn : Addr12) : (zextAddr nnn).toNat ≤ 4350 := by
  have hn : nnn.toNat < 2 ^ 12 := nnn.isLt
  rw [zextAddr_toNat]
  omega

theorem performs_call (nnn : Addr12) : Performs (.call nnn) s := by
  by_cases hfull : s.cfg.stackCap = some s.stack.length
  · exact .inl ⟨_, _, exec_call_full nnn hfull⟩
  · exact .of_effect (exec_call_room nnn hfull)
      (.of_v_eq (setPcStack_onlyChanges s _ _) rfl rfl (.call hfull rfl (zextAddr_toNat_le nnn)))

theorem performs_skp (x : Nibble) : Performs (.skp x) s := by
  obtain h | h := Nat.lt_or_ge 15 (s.readV x).toNat
  · exact .inl ⟨_, _, exec_skp_of_gt x h⟩
  · exact .of_effect (exec_skp_of_le x h) (.skipIf (by simp [Instr.writes]) _)

theorem performs_sknp (x : Nibble) : Performs (.sknp x) s := by
  obtain h | h := Nat.lt_or_ge 15 (s.readV x).toNat
  · exact .inl ⟨_, _, exec_sknp_of_gt x h⟩
  · exact .of_effect (exec_sknp_of_le x h) (.skipIf (by simp [Instr.writes]) _)

theorem performs_jp (nnn : Addr12) : Performs (.jp nnn) s :=
  .of_effect rfl (.of_v_eq (setPc_onlyChanges s _) rfl rfl (.jump rfl (zextAddr_toNat_le nnn)))

theorem performs_jpV0 (nnn : Addr12) : Performs (.jpV0 nnn) s := by
  have hb : (s.readV 0).toNat < 2 ^ 8 := (s.readV 0).isLt
  have hn : nnn.toNat < 2 ^ 12 := nnn.isLt
  exact .of_effect rfl
    (.of_v_eq (setPc_onlyChanges s _) rfl rfl (.jump rfl (by rw [zextByte_add_zextAddr_toNat]; omega)))

theorem exec_ldVxK_of_lowestKey_none (x : Nibble) (h : s.lowestKey = none) :
    exec (.ldVxK x) s = .next { s with pc := s.pc - 2 } := by
  simp only [exec, execLdVxK, h]

theorem performs_ldVxK (x : Nibble) : Performs (.ldVxK x) s := by
  cases h : s.lowestKey with
  | none =>
    exact .of_effect (exec_ldVxK_of_lowestKey_none x h)
      (.of_v_eq ((setPc_onlyChanges s _).mono (by simp [Instr.writes])) rfl rfl (.near rfl (.inr (.inr rfl))))
  | some k =>
    exact .of_effect (exec_ldVxK_some x h) (.writeV (by simp [Instr.writes]) (by simp [Instr.writesReg]) _)

theorem performs_rnd (x : Nibble) (kk : Byte) : Performs (.rnd x kk) s :=
  .of_effect rfl (.of_regsKeptBut (R := [x]) (s.rnd_onlyChanges x _) rfl (s.consumeRandom.writeV_regsKeptBut x _)
    (by simp [Instr.writesReg]) (.near rfl (.inl rfl)))

theorem performs_addReg (x y : Nibble) : Performs (.addReg x y) s :=
  .of_effect rfl (.of_regsKeptBut (setV_onlyChanges s _) rfl (s.writeV_writeV_regsKeptBut x VF _ _)
    (by simp [Instr.writesReg]) (.near rfl (.inl rfl)))

theorem performs_drw (x y n : Nibble) : Performs (.drw x y n) s :=
  .of_dataRange (exec_drw x y n s) (.of_regsKeptBut (setVFb_onlyChanges s _ _) rfl (s.drawn_regsKeptBut x y n)
    (by simp [Instr.writesReg]) (.near rfl (.inl rfl)))

theorem performs_ldVxMem (x : Nibble) : Performs (.ldVxMem x) s := by
  refine .of_dataRange rfl ⟨s.loadRegs_onlyChanges _ _, fun r hr => ?_, ?_, .near (by simp) (.inl (by simp))⟩
  · have hr : ¬r.toNat ≤ x.toNat := by simpa [Instr.writesReg] using hr
    rw [s.readV_loadRegs_loadBytes x.isLt, if_neg (by omega)]
  · exact (State.memWF_congr (by simp) (by simp)).mpr

end

/-- Every operation raises, or has the effect of what it writes. -/
theorem performs (i : Instr) (s : State) : Performs i s := by
  cases i with
  | ret u => exact performs_ret u
  | call nnn => exact performs_call nnn
  | jp nnn => exact performs_jp nnn
  | jpV0 nnn => exact performs_jpV0 nnn
  | skp x => exact performs_skp x
  | sknp x => exact performs_sknp x
  | ldVxK x => exact performs_ldVxK x
  | rnd x kk => exact performs_rnd x kk
  | addReg x y => exact performs_addReg x y
  | drw x y n => exact performs_drw x y n
  | ldVxMem x => exact performs_ldVxMem x
  | ldBVx x | ldMemVx x => exact .of_dataRange rfl (.storeBytes (by simp [Instr.writes]) _ _)
  | seImm x kk | sneImm x kk => exact .of_effect rfl (.skipIf (by simp [Instr.writes]) _)
  | seReg x y u | sneReg x y u => exact .of_effect rfl (.skipIf (by simp [Instr.writes]) _)
  | subReg x y | shr x y | subnReg x y | shl x y =>
    exact .of_effect rfl (.flagThenResult (x := x) (by simp [Instr.writes]) (by simp [Instr.writesReg])
      (by simp [Instr.writesReg]) _ _ _ _)
  | ldImm x _ | addImm x _ | ldReg x _ | orReg x _ | andReg x _ | xorReg x _ | ldVxDt x =>
    exact .of_effect rfl (.writeV (x := x) (by simp [Instr.writes]) (by simp [Instr.writesReg]) _)
  | cls u => exact .of_effect rfl (.of_v_eq (setFb_onlyChanges s _) rfl rfl (.near rfl (.inl rfl)))
  | ldI _ | addIVx x | ldFVx x =>
    exact .of_effect rfl (.of_v_eq (setI_onlyChanges s _) rfl rfl (.near rfl (.inl rfl)))
  | ldDtVx x => exact .of_effect rfl (.of_v_eq (setDt_onlyChanges s _) rfl rfl (.near rfl (.inl rfl)))
  | ldStVx x => exact .of_effect rfl (.of_v_eq (setSt_onlyChanges s _) rfl rfl (.near rfl (.inl rfl)))

/-! ### Consequences of the list of effects -/

/-- An operation that answers `t` latched a fault of its own on the state before the cycle, or had its effect. -/
theorem exec_cases {i : Instr} {s t : State} (h : exec i s = .next t) :
    (∃ kind info, t = s.unadvance.latch kind (some (encode i)) info) ∨ Effect i s t := by
  obtain ⟨kind, info, hraise⟩ | ⟨u, hu, heffect⟩ := performs i s
  · exact .inl ⟨kind, info, Host.Outcome.next.inj (h.symm.trans hraise)⟩
  · obtain rfl : t = u := Host.Outcome.next.inj (h.symm.trans hu)
    exact .inr heffect

/-- An operation that answers a state which is not halted had its effect. -/
theorem Effect.of_exec {i : Instr} {s t : State} (h : exec i s = .next t) (ht : t.fault = none) : Effect i s t := by
  obtain ⟨kind, info, rfl⟩ | heffect := exec_cases h
  · exact nomatch ht
  · exact heffect

/-- Settles O55: the frame of the operation's effect. -/
theorem operationsWriteOnlyTheirElements : Obligations.OperationsWriteOnlyTheirElements := fun _ _ _ _ h ht =>
  (Effect.of_exec h ht).frame

/-- Settles O56: a raise keeps every register, an effect those outside the written column. -/
theorem operationsWriteOnlyTheirRegisters : Obligations.OperationsWriteOnlyTheirRegisters := by
  intro i s t r h hr
  obtain ⟨kind, info, rfl⟩ | heffect := exec_cases h
  · simp
  · exact heffect.regs r hr

/-- Settles O16: a raise answers a state as well, and so does every cycle. -/
theorem everyOperationAnswersAState : Obligations.EveryOperationAnswersAState := by
  refine ⟨fun i s => ?_, fun s hf => ?_⟩
  · obtain ⟨_, _, hraise⟩ | ⟨t, ht, -⟩ := performs i s
    · exact ⟨_, hraise⟩
    · exact ⟨t, ht⟩
  · obtain ⟨t, ht, -⟩ := cyclesFaultExactlyAsListed.1 s hf
    exact ⟨t, ht⟩

end Sys2Proof.Machine
end

section
/-! SUPPORT. The invariant of every run (R7, R26, R28, R33, R35): reset meets it, and every operation, cycle and host
transaction keeps it. -/

namespace Sys2Proof.Machine

/-! ### Reset (R41, R270) -/

theorem State.inv_resetWith {c : Config} (hc : c.wf = true) (n : Nat) :
    State.Inv { State.resetWith c with rndCount := n } where
  mem := State.resetWith_memWF c
  cfg := hc
  stackCap := by
    unfold State.stackWithinCap
    split
    · rfl
    · exact decide_eq_true (Nat.zero_le _)
  pc := (by decide : resetPc.toNat ≤ 4350)
  returns _ hw := nomatch hw
  fault := rfl

/-- Settles O52: the clauses at the reset values, for the default parameters and for all. -/
theorem resetMeetsTheInvariant : Obligations.ResetMeetsTheInvariant :=
  ⟨State.inv_resetWith (c := Config.default) rfl 0, fun _ hc => State.inv_resetWith hc 0⟩

/-! ### The shape of a fault record (R35, R250) -/

/-- The kinds and details of R250 go together, for every operation. -/
theorem operationFault_wf {s : State} {o : Operation} {kind : FaultKind} {info : FaultInfo} (p w : Word)
    (h : operationFault s o = some (kind, info)) : FaultRecord.wf ⟨kind, p, some w, info⟩ = true := by
  have hi : s.i.toNat < 2 ^ 16 := s.i.isLt
  have hdata {count : Nat} (h : dataFault s count = some (kind, info)) :
      FaultRecord.wf ⟨kind, p, some w, info⟩ = true := by
    obtain ⟨-, rfl, rfl⟩ : _ ∧ FaultKind.memoryOutOfBounds = kind ∧ FaultInfo.addr (max s.i.toNat 4096) = info := by
      simpa [dataFault] using h
    simp only [FaultRecord.wf, decide_eq_true_eq]
    omega
  unfold operationFault at h
  split at h
  case h_1 | h_2 =>
    obtain ⟨-, rfl, rfl⟩ := by simpa using h
    rfl
  case h_3 | h_4 =>
    obtain ⟨hkey, rfl, rfl⟩ := by simpa using h
    exact decide_eq_true hkey
  case h_9 => exact nomatch h
  all_goals exact hdata h

theorem cycleFault_wf {s : State} {r : FaultRecord} (h : cycleFault s = some r) : r.wf = true := by
  obtain hp | hp := Nat.lt_or_ge s.pc.toNat 4095
  · rw [cycleFault_of_operation hp] at h
    obtain ⟨⟨kind, info⟩, hop, rfl⟩ := Option.map_eq_some_iff.mp h
    exact operationFault_wf _ _ hop
  · rw [cycleFault_of_fetch hp] at h
    cases h
    exact decide_eq_true hp

/-! ### The cycle -/

section
variable {s t : State}

/-- Latching the record of R250 keeps the invariant. -/
theorem State.Inv.latched (h : s.Inv) {r : FaultRecord} (hr : cycleFault s = some r) :
    State.Inv { s with fault := some r } where
  mem := h.mem
  cfg := h.cfg
  stackCap := h.stackCap
  pc := h.pc
  returns := h.returns
  fault := by simp [State.faultWf, cycleFault_wf hr, (cycleFault_pc_opcode hr).1]

/-- The timers are in no clause of the invariant. -/
theorem State.Inv.tick (h : s.Inv) : s.tick.Inv := ⟨h.mem, h.cfg, h.stackCap, h.pc, h.returns, h.fault⟩

theorem State.stackWithinCap_iff : s.stackWithinCap = true ↔ ∀ c, s.cfg.stackCap = some c → s.stack.length ≤ c := by
  unfold State.stackWithinCap
  cases s.cfg.stackCap with
  | none => simp
  | some c => simp

/-- The bounds of PC, of the return addresses and of the stack, from where PC and the stack went. -/
theorem State.Inv.of_flow (h : s.Inv) (hp : s.pc.toNat < 4095) (hflow : s.advance.Flow t) (hcfg : t.cfg = s.cfg)
    (hmem : t.MemWF) (hfault : t.fault = none) : t.Inv := by
  have hcap := State.stackWithinCap_iff.mp h.stackCap
  have hadvance : (s.pc + 2).toNat = s.pc.toNat + 2 := by bv_omega
  have hbounds : t.pc.toNat ≤ 4350 ∧ (∀ w ∈ t.stack, w.toNat ≤ 4096) ∧
      ∀ c, s.cfg.stackCap = some c → t.stack.length ≤ c := by
    cases hflow with
    | near hstack hpc =>
      have hpc : t.pc = s.pc + 2 ∨ t.pc = s.pc + 2 + 2 ∨ t.pc = s.pc + 2 - 2 := hpc
      rw [hstack]
      exact ⟨by bv_omega, h.returns, hcap⟩
    | jump hstack hpc =>
      rw [hstack]
      exact ⟨hpc, h.returns, hcap⟩
    | ret hstack =>
      have hstack : s.stack = t.pc :: t.stack := hstack
      have hreturns := h.returns
      rw [hstack] at hreturns hcap
      obtain ⟨htop, hrest⟩ := List.forall_mem_cons.mp hreturns
      exact ⟨Nat.le_trans htop (by decide), hrest, fun c hc => Nat.le_of_succ_le (hcap c hc)⟩
    | call hroom hstack hpc =>
      have hroom : s.cfg.stackCap ≠ some s.stack.length := hroom
      have hstack : t.stack = (s.pc + 2) :: s.stack := hstack
      rw [hstack]
      refine ⟨hpc, List.forall_mem_cons.mpr ⟨by omega, h.returns⟩, fun c hc => ?_⟩
      have hne : s.stack.length ≠ c := fun hlen => hroom (hlen ▸ hc)
      exact Nat.lt_of_le_of_ne (hcap c hc) hne
  obtain ⟨hpc, hreturns, hstackCap⟩ := hbounds
  exact ⟨hmem, hcfg ▸ h.cfg, State.stackWithinCap_iff.mpr (hcfg ▸ hstackCap), hpc, hreturns,
    by simp [State.faultWf, hfault]⟩

/-- A `NOP` or an operation that answers a state which is not halted keeps the invariant. -/
theorem State.Inv.of_executeOperation {o : Operation} (h : s.Inv) (hf : s.fault = none) (hp : s.pc.toNat < 4095)
    (hexec : executeOperation o s.advance = .next t) (ht : t.fault = none) : t.Inv := by
  have hmem : s.advance.MemWF := (State.memWF_congr rfl rfl).mpr h.mem
  cases o with
  | nop =>
    obtain rfl := Host.Outcome.next.inj hexec
    exact h.of_flow hp (.near rfl (.inl rfl)) rfl hmem hf
  | op i =>
    have heffect : Effect i s.advance t := .of_exec hexec ht
    exact h.of_flow hp heffect.flow heffect.cfg (heffect.memWF hmem) ht

/-- Settles O53, by whether R250 lists a fault for the cycle: then the record is latched on the state before it, else
PC and the stack went where the operation's effect says. -/
theorem stepKeepsTheInvariant : Obligations.StepKeepsTheInvariant := by
  intro s t h hstep
  obtain ⟨hf, hp, rfl⟩ | ⟨hf, hp, u, hu, rfl⟩ := step_cases hstep
  · exact h.latched (cycleFault_of_fetch hp)
  cases hc : cycleFault s with
  | some r =>
    rw [← Host.Outcome.next.inj ((step_of_cycleFault_some hf hc).symm.trans hstep)]
    exact h.latched hc
  | none =>
    cases huf : u.fault with
    | none => simpa [huf] using (h.of_executeOperation hf hp hu huf).tick
    | some r =>
      obtain ⟨t, ht, htf⟩ := step_of_cycleFault_none hf hc
      have heq := Host.Outcome.next.inj (ht.symm.trans hstep)
      simp [heq, huf] at htf

/-! ### Host transactions -/

theorem State.Inv.storeBytes (h : s.Inv) (a : Nat) (bs : List Byte) : (s.storeBytes a bs).Inv where
  mem := s.storeBytes_memWF h.mem a bs
  cfg := by simpa using h.cfg
  stackCap := by simpa [State.stackWithinCap] using h.stackCap
  pc := by simpa using h.pc
  returns := by simpa using h.returns
  fault := by simpa [State.faultWf] using h.fault

theorem State.Inv.hostCycle (h : s.Inv) : s.hostCycle.1.Inv := by
  unfold State.hostCycle
  split
  case h_1 t ht => exact stepKeepsTheInvariant s t h ht
  all_goals exact h

theorem State.Inv.hostLoad (h : s.Inv) (bytes : List Byte) : (s.hostLoad bytes).1.Inv := by
  unfold State.hostLoad
  split
  · exact h
  · exact h.storeBytes progBase bytes

theorem State.Inv.hostKey (h : s.Inv) (k : Int) (pressed : Bool) : (s.hostKey k pressed).1.Inv := by
  unfold State.hostKey
  split
  · exact ⟨h.mem, h.cfg, h.stackCap, h.pc, h.returns, h.fault⟩
  · exact h

theorem State.Inv.transact (h : s.Inv) (tr : Transaction) : (transact s tr).1.Inv := by
  cases tr with
  | cycle => exact h.hostCycle
  | reset => exact State.inv_resetWith h.cfg s.rndCount
  | loadProgram bytes => exact h.hostLoad bytes
  | setKey k => exact h.hostKey k true
  | clearKey k => exact h.hostKey k false
  | readout => exact h

/-- Settles O54, by induction on the transactions. -/
theorem sessionsKeepTheInvariant : Obligations.SessionsKeepTheInvariant := by
  intro s ts h
  induction ts generalizing s with
  | nil => exact h
  | cons tr ts ih => exact ih _ (h.transact tr)

end

end Sys2Proof.Machine
end

section
/-! SUPPORT. A register that an operation neither reads nor writes has no influence on it (R23): setting it before the
operation is setting it after. -/

namespace Sys2Proof.Machine

/-- The outcome with `f` applied to its state. -/
def mapNext (f : State → State) : Host.Outcome State Fault Refusal → Host.Outcome State Fault Refusal
  | .next t    => .next (f t)
  | .fault q   => .fault q
  | .refused q => .refused q

section
variable (s : State) {r : Nibble} (b : Byte)

/-! ### Shared operations that do not see the register -/

theorem State.skipIf_writeV (taken : Bool) : (s.writeV r b).skipIf taken = (s.skipIf taken).writeV r b := by
  cases taken <;> rfl

theorem State.storeByte_writeV (a : Nat) (c : Byte) :
    (s.writeV r b).storeByte a c = (s.storeByte a c).writeV r b := by
  unfold State.storeByte
  split <;> rfl

theorem State.storeBytes_writeV (a : Nat) (bs : List Byte) :
    (s.writeV r b).storeBytes a bs = (s.storeBytes a bs).writeV r b := by
  induction bs generalizing s a with
  | nil => rfl
  | cons c bs ih => rw [State.storeBytes, s.storeByte_writeV, ih, State.storeBytes]

theorem ne_ofNat_of_lt_toNat {k : Nat} (hk : k < r.toNat) : r ≠ BitVec.ofNat 4 k := fun heq => by
  have hr : r.toNat < 16 := r.isLt
  have htoNat : r.toNat = k := heq ▸ (BitVec.toNat_ofNat k 4).trans (Nat.mod_eq_of_lt (by omega))
  omega

theorem State.firstRegs_writeV {n : Nat} (hn : n ≤ r.toNat) : (s.writeV r b).firstRegs n = s.firstRegs n :=
  List.map_congr_left fun _ hk =>
    s.readV_writeV_of_ne (ne_ofNat_of_lt_toNat (Nat.lt_of_lt_of_le (List.mem_range.mp hk) hn)) b

theorem State.loadRegs_writeV {k : Nat} {bs : List Byte} (hk : k + bs.length ≤ r.toNat) :
    (s.writeV r b).loadRegs k bs = (s.loadRegs k bs).writeV r b := by
  induction bs generalizing s k with
  | nil => rfl
  | cons c bs ih =>
    rw [List.length_cons] at hk
    rw [State.loadRegs, s.writeV_comm (ne_ofNat_of_lt_toNat (by omega)), ih _ (by omega), State.loadRegs]

theorem State.flagThenResult_writeV {x a c : Nibble} (hx : r ≠ x) (hVF : r ≠ VF) (ha : r ≠ a) (hc : r ≠ c)
    (flag result : Byte → Byte → Byte) :
    (s.writeV r b).flagThenResult x a c flag result = (s.flagThenResult x a c flag result).writeV r b := by
  unfold State.flagThenResult
  simp only [State.writeV_cfg, State.readV_writeV_of_ne s ha, State.readV_writeV_of_ne s hc, State.writeV_comm _ hVF,
    State.readV_writeV_of_ne _ ha, State.readV_writeV_of_ne _ hc]
  cases s.cfg.aluFlagOrder with
  | sequential | simultaneous => exact State.writeV_comm _ hx _ _

theorem State.withDataRange_writeV (i : Instr) (count : Nat) (t : State) :
    (s.writeV r b).withDataRange i count (t.writeV r b) = mapNext (·.writeV r b) (s.withDataRange i count t) := by
  rw [State.withDataRange_eq, State.withDataRange_eq, apply_ite (mapNext (·.writeV r b))]
  rfl

theorem State.drawn_writeV {x y : Nibble} (n : Nibble) (hVF : r ≠ VF) (hx : r ≠ x) (hy : r ≠ y) :
    (s.writeV r b).drawn x y n = (s.drawn x y n).writeV r b := by
  have hcanvas : (s.writeV r b).drawCanvas x y n = s.drawCanvas x y n := by
    unfold State.drawCanvas State.drawnCount
    rw [s.readV_writeV_of_ne hx, s.readV_writeV_of_ne hy]
    rfl
  rw [State.drawn, hcanvas]
  exact State.writeV_comm { s with fb := (s.drawCanvas x y n).1 } hVF _ b

/-! ### The operations with more than one outcome -/

theorem exec_ret_writeV (u : Nibble) : exec (.ret u) (s.writeV r b) = mapNext (·.writeV r b) (exec (.ret u) s) := by
  cases h : s.stack with
  | nil => rw [exec_ret_nil u h, exec_ret_nil u (s := s.writeV r b) h]; rfl
  | cons w rest => rw [exec_ret_cons u h, exec_ret_cons u (s := s.writeV r b) h]; rfl

theorem exec_ldVxK_writeV {x : Nibble} (hx : r ≠ x) :
    exec (.ldVxK x) (s.writeV r b) = mapNext (·.writeV r b) (exec (.ldVxK x) s) := by
  cases h : s.lowestKey with
  | none => rw [exec_ldVxK_of_lowestKey_none x h, exec_ldVxK_of_lowestKey_none x (s := s.writeV r b) h]; rfl
  | some k =>
    rw [exec_ldVxK_some x h, exec_ldVxK_some x (s := s.writeV r b) h, s.writeV_comm hx]
    rfl

theorem exec_call_writeV (nnn : Addr12) :
    exec (.call nnn) (s.writeV r b) = mapNext (·.writeV r b) (exec (.call nnn) s) := by
  by_cases h : s.cfg.stackCap = some s.stack.length
  · rw [exec_call_full nnn h, exec_call_full nnn (s := s.writeV r b) h]; rfl
  · rw [exec_call_room nnn h, exec_call_room nnn (s := s.writeV r b) h]; rfl

/-- The two key skips: each tests Vx, and then the key it names. -/
theorem exec_keySkip_writeV {i : Instr} {x : Nibble} (taken : State → Byte → Bool)
    (htaken : ∀ k, taken (s.writeV r b) k = taken s k)
    (hi : ∀ s, exec i s = if 15 < (s.readV x).toNat then s.raise i .keyIndexOutOfRange (.key (s.readV x))
      else .next (s.skipIf (taken s (s.readV x)))) (hx : r ≠ x) :
    exec i (s.writeV r b) = mapNext (·.writeV r b) (exec i s) := by
  rw [hi, hi, s.readV_writeV_of_ne hx, htaken, s.skipIf_writeV, apply_ite (mapNext (·.writeV r b))]
  rfl

/-! ### Every operation -/

variable {i : Instr} {f : State → State}

/-- The operations that always answer. -/
theorem exec_writeV_of_next (hi : ∀ s, exec i s = .next (f s)) (hf : f (s.writeV r b) = (f s).writeV r b) :
    exec i (s.writeV r b) = mapNext (·.writeV r b) (exec i s) := by
  rw [hi, hi, hf, mapNext]

/-- The operations that access data. -/
theorem exec_writeV_of_dataRange (count : State → Nat) (hi : ∀ s, exec i s = s.withDataRange i (count s) (f s))
    (hcount : count (s.writeV r b) = count s) (hf : f (s.writeV r b) = (f s).writeV r b) :
    exec i (s.writeV r b) = mapNext (·.writeV r b) (exec i s) := by
  rw [hi, hi, hf, hcount, s.withDataRange_writeV]

end

/-- R23, operation by operation: those that may raise, and then by what they read and write. -/
theorem exec_writeV {i : Instr} {r : Nibble} (hr : i.readsReg r = false) (hw : i.writesReg r = false) (s : State)
    (b : Byte) : exec i (s.writeV r b) = mapNext (·.writeV r b) (exec i s) := by
  have hread {x : Nibble} (hx : r ≠ x) : (s.writeV r b).readV x = s.readV x := s.readV_writeV_of_ne hx b
  cases i <;> simp only [Instr.readsReg, Instr.writesReg, Bool.or_eq_false_iff, beq_eq_false_iff_ne,
    decide_eq_false_iff_not] at hr hw
  case cls | jp | ldI => rfl
  case ret u => exact exec_ret_writeV s b u
  case call nnn => exact exec_call_writeV s b nnn
  case ldVxK x => exact exec_ldVxK_writeV s b hw
  case skp x =>
    exact exec_keySkip_writeV s b (fun s k => s.keyPressed k.toNat) (fun _ => rfl) (fun _ => rfl) hr
  case sknp x =>
    exact exec_keySkip_writeV s b (fun s k => !s.keyPressed k.toNat) (fun _ => rfl) (fun _ => rfl) hr
  case seImm | sneImm =>
    exact exec_writeV_of_next s b (fun _ => rfl) (by rw [hread hr, s.skipIf_writeV])
  case seReg | sneReg =>
    exact exec_writeV_of_next s b (fun _ => rfl) (by rw [hread hr.1, hread hr.2, s.skipIf_writeV])
  case jpV0 | ldDtVx | ldStVx | addIVx | ldFVx =>
    exact exec_writeV_of_next s b (fun _ => rfl) (by rw [hread hr]; rfl)
  case ldImm | ldVxDt => exact exec_writeV_of_next s b (fun _ => rfl) (s.writeV_comm hw _ b)
  case rnd => exact exec_writeV_of_next s b (fun _ => rfl) (s.consumeRandom.writeV_comm hw _ b)
  case addImm | ldReg => exact exec_writeV_of_next s b (fun _ => rfl) (by rw [hread hr, s.writeV_comm hw])
  case orReg | andReg | xorReg =>
    exact exec_writeV_of_next s b (fun _ => rfl) (by rw [hread hr.1, hread hr.2, s.writeV_comm hw])
  case addReg =>
    exact exec_writeV_of_next s b (fun _ => rfl)
      (by rw [hread hr.1, hread hr.2, s.writeV_comm hw.1, State.writeV_comm _ hw.2])
  case subReg =>
    exact exec_writeV_of_next s b (fun _ => rfl) (s.flagThenResult_writeV b hw.1 hw.2 hr.1 hr.2 _ _)
  case subnReg =>
    exact exec_writeV_of_next s b (fun _ => rfl) (s.flagThenResult_writeV b hw.1 hw.2 hr.2 hr.1 _ _)
  case shr | shl =>
    exact exec_writeV_of_next s b (fun _ => rfl) (s.flagThenResult_writeV b hw.1 hw.2 hr hr _ _)
  case drw x y n =>
    exact exec_writeV_of_dataRange s b (State.drawnCount y n) (exec_drw x y n)
      (by rw [State.drawnCount, hread hr.2]; rfl) (s.drawn_writeV b n hw hr.1 hr.2)
  case ldBVx x =>
    exact exec_writeV_of_dataRange s b (fun _ => 3) (fun _ => rfl) rfl
      (by rw [hread hr]; exact s.storeBytes_writeV b _ _)
  case ldMemVx x =>
    exact exec_writeV_of_dataRange s b (fun _ => x.toNat + 1) (fun _ => rfl) rfl
      (by rw [s.firstRegs_writeV b (by omega)]; exact s.storeBytes_writeV b _ _)
  case ldVxMem x =>
    exact exec_writeV_of_dataRange s b (fun _ => x.toNat + 1) (fun _ => rfl) rfl
      (s.loadRegs_writeV b (by rw [State.loadBytes_length]; omega))

/-- Settles O57: the outcome with the register set is the outcome, its state with the register set. -/
theorem unreadRegistersHaveNoInfluence : Obligations.UnreadRegistersHaveNoInfluence := by
  intro i s t r b hr hw h
  rw [exec_writeV hr hw, h, mapNext]

end Sys2Proof.Machine
end

section
/-! SUPPORT. Two operations one after the other: a fetch of stored registers (R52, R174), and two draws of one sprite
(R191). -/

namespace Sys2Proof.Machine

section
variable (s : State)

/-! ### Fetching what Fx55 stored -/

/-- Settles O39: the two bytes of the fetch are two neighbours of the stored block. -/
theorem storedRegistersAreFetched : Obligations.StoredRegistersAreFetched := by
  intro x r s h hr
  obtain ⟨t, ht, hstored, -⟩ := registerBlockStore.2.1 x s h
  refine ⟨t, ht, fun u hmem hcfg hpc => ?_⟩
  have hsucc : (r + 1).toNat = r.toNat + 1 := by bv_omega
  have hlo : t.loadByte (s.i.toNat + r.toNat + 1) = s.readV (r + 1) := by
    rw [Nat.add_assoc, ← hsucc]
    exact hstored (r + 1) (by omega)
  rw [State.fetchWord, hpc, State.loadByte_congr hmem hcfg, State.loadByte_congr hmem hcfg, hstored r (by omega), hlo]

/-! ### Drawing the same sprite again -/

/-- A draw leaves the next one the same sprite at the same place, when VF is no operand. -/
theorem spriteCovers_drawn {x y : Nibble} (hx : x ≠ VF) (hy : y ≠ VF) (n : Nibble) (idx : Nat) :
    spriteCovers x y n (s.drawn x y n) idx = spriteCovers x y n s idx := by
  have hread {q : Nibble} (hq : q ≠ VF) : (s.drawn x y n).readV q = s.readV q :=
    s.drawn_regsKeptBut x y n q (by simpa using hq)
  have hmem (a : Nat) : (s.drawn x y n).loadByte a = s.loadByte a := State.loadByte_congr rfl rfl a
  have hi : (s.drawn x y n).i = s.i := rfl
  simp only [spriteCovers, hread hx, hread hy, hmem, hi]

theorem exec_drw_of_le {x y n : Nibble} (h : s.i.toNat + min n.toNat (32 - (s.readV y).toNat % 32) ≤ 4096) :
    exec (.drw x y n) s = .next (s.drawn x y n) :=
  (exec_drw x y n s).trans (s.withDataRange_of_le _ h _)

theorem State.drawn_cell (x y n : Nibble) (idx : Nat) :
    (s.drawn x y n).fb.cell idx = (s.fb.cell idx ^^ spriteCovers x y n s idx) :=
  s.drawCanvas_cell x y n idx

/-- VF after a draw says whether a covered cell was on. -/
theorem State.readV_VF_drawn_eq_one_iff (x y n : Nibble) :
    (s.drawn x y n).readV VF = 1 ↔ ∃ idx, spriteCovers x y n s idx = true ∧ s.fb.cell idx = true := by
  rw [s.readV_VF_drawn, ← s.drawCanvas_collision]
  cases (s.drawCanvas x y n).2 <;> decide

/-- Settles O42: each covered cell is flipped twice, and the second draw finds a covered cell on exactly where the first
turned it on. -/
theorem drawTwiceRestoresTheDisplay : Obligations.DrawTwiceRestoresTheDisplay := by
  intro x y n s t u hx hy h ht hu
  obtain rfl : s.drawn x y n = t := Host.Outcome.next.inj ((exec_drw_of_le s h).symm.trans ht)
  have hread : (s.drawn x y n).readV y = s.readV y := s.drawn_regsKeptBut x y n y (by simpa using hy)
  have hcovers := spriteCovers_drawn s hx hy n
  obtain rfl : (s.drawn x y n).drawn x y n = u :=
    Host.Outcome.next.inj ((exec_drw_of_le _ (by rw [hread]; exact h)).symm.trans hu)
  refine ⟨fun idx _ => ?cells, ?collision⟩
  case cells => rw [State.drawn_cell, hcovers, State.drawn_cell, Bool.xor_assoc, Bool.xor_self, Bool.xor_false]
  case collision =>
    rw [State.readV_VF_drawn_eq_one_iff]
    refine exists_congr fun idx => ?_
    rw [hcovers, s.drawn_cell]
    constructor
    · rintro ⟨hcov, hon⟩
      exact ⟨lt_of_spriteCovers hcov, hon, by simpa [hcov] using hon⟩
    · rintro ⟨-, hon, hoff⟩
      exact ⟨by simpa [hoff] using hon, hon⟩

end

end Sys2Proof.Machine
end

section
/-! SUPPORT. The reset values (R41, R270) and the results of the host's transactions (R234, R241). -/

namespace Sys2Proof.Machine

/-! ### Reset values -/

/-- R41: the font at 0x50 to 0x9F, and 0 elsewhere. -/
theorem Memory.background_eq (font : Vector Byte 80) (a : Nat) :
    Memory.background font a = if 0x50 ≤ a ∧ a < 0xA0 then font[a - 0x50]?.getD 0 else 0 := by
  unfold Memory.background
  split
  · next h =>
    have hfont : 0x50 ≤ a ∧ a < 0xA0 := h
    rw [if_pos hfont, Vector.getElem?_eq_getElem, Option.getD_some]
  · next h => exact (if_neg h).symm

theorem State.readV_of_replicate {s : State} (h : s.v = Vector.replicate 16 0) (r : Nibble) : s.readV r = 0 := by
  simp only [State.readV, h, Vector.getElem_replicate]

theorem State.keyPressed_of_replicate {s : State} (h : s.key = Vector.replicate 16 false) {k : Nat} (hk : k < 16) :
    s.keyPressed k = false := by
  simp [State.keyPressed, h, hk]

/-- Settles O50: construction and reset differ in the count of random bytes alone. -/
theorem resetGivesTheBaseline : Obligations.ResetGivesTheBaseline := by
  intro s t h
  obtain ⟨n, rfl⟩ : ∃ n, t = { State.resetWith s.cfg with rndCount := n } :=
    h.elim (fun h => ⟨s.rndCount, h⟩) (fun h => ⟨0, h⟩)
  exact ⟨State.readV_of_replicate rfl, Memory.background_eq s.cfg.font, rfl, rfl, rfl, rfl, rfl,
    fun idx _ => Framebuffer.cell_clear idx, fun _ => State.keyPressed_of_replicate rfl, rfl, rfl⟩

/-! ### Results of transactions -/

/-- Settles O58: a machine that is not halted answers a state, and FAULT of that state decides the result. -/
theorem cycleTransactionReportsTheFault : Obligations.CycleTransactionReportsTheFault := by
  intro s hf
  obtain ⟨t, ht⟩ := everyOperationAnswersAState.2 s hf
  exact ⟨t, ht, hostCycle_ok ht, fun _ => hostCycle_faulted ht⟩

section
variable (s : State)

/-- R234, of a machine that is halted or not. -/
theorem State.hostCycle_result :
    s.hostCycle.2 = .ok ∨ ∃ r, s.hostCycle.2 = .faulted r ∧ s.hostCycle.1.fault = some r := by
  cases hf : s.fault with
  | some r => exact .inr ⟨r, by rw [hostCycle_halted hf], by rw [hostCycle_halted hf, hf]⟩
  | none =>
    obtain ⟨t, -, hok, hfaulted⟩ := cycleTransactionReportsTheFault s hf
    cases ht : t.fault with
    | none => exact .inl (congrArg Prod.snd (hok ht))
    | some r =>
      have hcycle : s.hostCycle = (t, .faulted r) := hfaulted r ht
      exact .inr ⟨r, by rw [hcycle], by rw [hcycle, ht]⟩

theorem State.hostLoad_result (bytes : List Byte) :
    (s.hostLoad bytes).2 = .ok ∨ s.hostLoad bytes = (s, .hostError .programTooLarge) := by
  unfold State.hostLoad
  split
  · exact .inr rfl
  · exact .inl rfl

theorem State.hostKey_result (k : Int) (pressed : Bool) :
    (s.hostKey k pressed).2 = .ok ∨ s.hostKey k pressed = (s, .hostError .invalidKeyIndex) := by
  unfold State.hostKey
  split
  · exact .inl rfl
  · exact .inr rfl

end

/-- Settles O59, transaction by transaction. -/
theorem transactionsReturnTheirResults : Obligations.TransactionsReturnTheirResults := fun s =>
  ⟨s.hostCycle_result, rfl, s.hostLoad_result, fun k => s.hostKey_result k true, fun k => s.hostKey_result k false,
   s.frameWords, rfl⟩

end Sys2Proof.Machine
end
